-- ==== Sys2Proof/Word.lean ====
section
/-! DEFINITION. The widths of the hardware's values (00_scope.md R5, R8, R9): all are unsigned. -/

namespace Sys2Proof

/-- An 8-bit value: a general register, a memory cell, a timer, the immediate `nn`. -/
abbrev Byte := BitVec 8

/-- A 16-bit value: an instruction word, `I`, `PC`, a stack entry. -/
abbrev Word := BitVec 16

/-- The 12-bit immediate `nnn` (R11). -/
abbrev Imm12 := BitVec 12

/-- The number of a general register, or any other 4-bit selector 0 to 15 (R11, R20, R92). -/
abbrev Reg := Fin 16

/-- `VF`, the register that doubles as the flag (R21). -/
abbrev vF : Reg := 15

end Sys2Proof
end

