-- ==== Sys2Proof/Syntax.lean ====
section
/-! DEFINITION. The instruction set: one constructor per row of spec/opcode_table.json, in the table's order (30_encoding.md R94). -/

namespace Sys2Proof

/-- The 33 instructions. Operands are the fields of R11: `x`, `y` register numbers, `n` a row count 0 to 15, `nn` a byte,
`nnn` 12 bits. `shr` and `shl` keep the field `y` that they ignore (R95). -/
inductive Instr where
  | cls
  | ret
  | jp (nnn : Imm12)
  | call (nnn : Imm12)
  | sei (x : Reg) (nn : Byte)
  | snei (x : Reg) (nn : Byte)
  | ser (x y : Reg)
  | ldi (x : Reg) (nn : Byte)
  | addi (x : Reg) (nn : Byte)
  | mov (x y : Reg)
  | or (x y : Reg)
  | and (x y : Reg)
  | xor (x y : Reg)
  | add (x y : Reg)
  | sub (x y : Reg)
  | shr (x y : Reg)
  | subn (x y : Reg)
  | shl (x y : Reg)
  | sner (x y : Reg)
  | lda (nnn : Imm12)
  | jpv (nnn : Imm12)
  | rnd (x : Reg) (nn : Byte)
  | drw (x y n : Reg)
  | skp (x : Reg)
  | sknp (x : Reg)
  | lddt (x : Reg)
  | wkey (x : Reg)
  | stdt (x : Reg)
  | stst (x : Reg)
  | adda (x : Reg)
  | bcd (x : Reg)
  | stm (x : Reg)
  | ldm (x : Reg)
deriving DecidableEq, Repr

end Sys2Proof
end

