-- ==== Sys2Proof/Decode.lean ====
section
/-! DEFINITION. Decoding and encoding of the 16-bit instruction words (30_encoding.md), and the opcode map of R94 as a list of rows. -/

namespace Sys2Proof

namespace Field

/-- The family `op = w[15:12]` (R11, R91). -/
def op (w : Word) : BitVec 4 := w.extractLsb' 12 4

/-- The field `x = w[11:8]` as a register number (R11, R92). -/
def x (w : Word) : Reg := (w.extractLsb' 8 4).toFin

/-- The field `y = w[7:4]` as a register number (R11, R92). -/
def y (w : Word) : Reg := (w.extractLsb' 4 4).toFin

/-- The field `n = w[3:0]` (R11, R92). -/
def n (w : Word) : Reg := (w.extractLsb' 0 4).toFin

/-- The field `nn = w[7:0]` (R11, R92). -/
def nn (w : Word) : Byte := w.extractLsb' 0 8

/-- The field `nnn = w[11:0]` (R11, R92). -/
def nnn (w : Word) : Imm12 := w.extractLsb' 0 12

end Field

/-- Why bytes are no instruction. -/
inductive DecodeError where
  /-- The word matches no row of the opcode map (R96). The step goes on past it (R253): not a stop. -/
  | unknownOpcode (w : Word)
  /-- Fewer than two bytes were given to the byte decoder; the machine itself never asks that. -/
  | truncated
deriving DecidableEq, Repr

/-- Family 0x0: the whole word must match (R93). -/
def decode0 (w : Word) : Option Instr :=
  if w = 0x00E0#16 then some .cls else if w = 0x00EE#16 then some .ret else none

/-- Family 0x8, chosen by `n` (R93). -/
def decode8 (w : Word) : Option Instr :=
  let x := Field.x w
  let y := Field.y w
  if Field.n w = 0x0 then some (.mov x y)
  else if Field.n w = 0x1 then some (.or x y)
  else if Field.n w = 0x2 then some (.and x y)
  else if Field.n w = 0x3 then some (.xor x y)
  else if Field.n w = 0x4 then some (.add x y)
  else if Field.n w = 0x5 then some (.sub x y)
  else if Field.n w = 0x6 then some (.shr x y)
  else if Field.n w = 0x7 then some (.subn x y)
  else if Field.n w = 0xE then some (.shl x y)
  else none

/-- Family 0xE, chosen by `nn` (R93). -/
def decodeE (w : Word) : Option Instr :=
  if Field.nn w = 0x9E#8 then some (.skp (Field.x w))
  else if Field.nn w = 0xA1#8 then some (.sknp (Field.x w))
  else none

/-- Family 0xF, chosen by `nn` (R93). -/
def decodeF (w : Word) : Option Instr :=
  let x := Field.x w
  if Field.nn w = 0x07#8 then some (.lddt x)
  else if Field.nn w = 0x0A#8 then some (.wkey x)
  else if Field.nn w = 0x15#8 then some (.stdt x)
  else if Field.nn w = 0x18#8 then some (.stst x)
  else if Field.nn w = 0x1E#8 then some (.adda x)
  else if Field.nn w = 0x33#8 then some (.bcd x)
  else if Field.nn w = 0x55#8 then some (.stm x)
  else if Field.nn w = 0x65#8 then some (.ldm x)
  else none

/-- The decision tree of R93. -/
def decodeTree (w : Word) : Option Instr :=
  let x := Field.x w
  let y := Field.y w
  if Field.op w = 0x0#4 then decode0 w
  else if Field.op w = 0x1#4 then some (.jp (Field.nnn w))
  else if Field.op w = 0x2#4 then some (.call (Field.nnn w))
  else if Field.op w = 0x3#4 then some (.sei x (Field.nn w))
  else if Field.op w = 0x4#4 then some (.snei x (Field.nn w))
  else if Field.op w = 0x5#4 then (if Field.n w = 0 then some (.ser x y) else none)
  else if Field.op w = 0x6#4 then some (.ldi x (Field.nn w))
  else if Field.op w = 0x7#4 then some (.addi x (Field.nn w))
  else if Field.op w = 0x8#4 then decode8 w
  else if Field.op w = 0x9#4 then (if Field.n w = 0 then some (.sner x y) else none)
  else if Field.op w = 0xA#4 then some (.lda (Field.nnn w))
  else if Field.op w = 0xB#4 then some (.jpv (Field.nnn w))
  else if Field.op w = 0xC#4 then some (.rnd x (Field.nn w))
  else if Field.op w = 0xD#4 then some (.drw x y (Field.n w))
  else if Field.op w = 0xE#4 then decodeE w
  else decodeF w

/-- Decoding, "a total function from the 65536 words to the 33 instructions plus `Unknown`" (R93, R96). -/
def decode (w : Word) : Except DecodeError Instr :=
  match decodeTree w with
  | some i => .ok i
  | none => .error (.unknownOpcode w)

/-- The word of two bytes, the first the more significant (R65, R90). -/
def wordOfBytes (hi lo : Byte) : Word := hi ++ lo

/-- The two bytes of a word in the order they lie in memory (R65). -/
def bytesOfWord (w : Word) : List Byte := [w.extractLsb' 8 8, w.extractLsb' 0 8]

/-- Decoding the front of any list of bytes; the rest of the list comes back with the instruction. -/
def decodeBytes : List Byte → Except DecodeError (Instr × List Byte)
  | hi :: lo :: rest =>
    match decode (wordOfBytes hi lo) with
    | .ok i => .ok (i, rest)
    | .error e => .error e
  | _ => .error .truncated

/-- Format `NNN`: `op` and the 12-bit `nnn` (R91). -/
def encNNN (op : BitVec 4) (nnn : Imm12) : Word := op ++ nnn

/-- Format `XNN`: `op`, `x`, `nn`; format `X` is this with a constant `nn` (R91). -/
def encXNN (op : BitVec 4) (x : Reg) (nn : Byte) : Word := op ++ (BitVec.ofFin x : BitVec 4) ++ nn

/-- Format `XYN`: `op`, `x`, `y`, `n`; format `XY` is this with a constant `n` (R91). -/
def encXYN (op : BitVec 4) (x y n : Reg) : Word :=
  op ++ (BitVec.ofFin x : BitVec 4) ++ (BitVec.ofFin y : BitVec 4) ++ (BitVec.ofFin n : BitVec 4)

/-- The word of an instruction, from the formats of R91 and the pattern column of R94. -/
def encode : Instr → Word
  | .cls => 0x00E0#16
  | .ret => 0x00EE#16
  | .jp nnn => encNNN 0x1#4 nnn
  | .call nnn => encNNN 0x2#4 nnn
  | .sei x nn => encXNN 0x3#4 x nn
  | .snei x nn => encXNN 0x4#4 x nn
  | .ser x y => encXYN 0x5#4 x y 0x0
  | .ldi x nn => encXNN 0x6#4 x nn
  | .addi x nn => encXNN 0x7#4 x nn
  | .mov x y => encXYN 0x8#4 x y 0x0
  | .or x y => encXYN 0x8#4 x y 0x1
  | .and x y => encXYN 0x8#4 x y 0x2
  | .xor x y => encXYN 0x8#4 x y 0x3
  | .add x y => encXYN 0x8#4 x y 0x4
  | .sub x y => encXYN 0x8#4 x y 0x5
  | .shr x y => encXYN 0x8#4 x y 0x6
  | .subn x y => encXYN 0x8#4 x y 0x7
  | .shl x y => encXYN 0x8#4 x y 0xE
  | .sner x y => encXYN 0x9#4 x y 0x0
  | .lda nnn => encNNN 0xA#4 nnn
  | .jpv nnn => encNNN 0xB#4 nnn
  | .rnd x nn => encXNN 0xC#4 x nn
  | .drw x y n => encXYN 0xD#4 x y n
  | .skp x => encXNN 0xE#4 x 0x9E#8
  | .sknp x => encXNN 0xE#4 x 0xA1#8
  | .lddt x => encXNN 0xF#4 x 0x07#8
  | .wkey x => encXNN 0xF#4 x 0x0A#8
  | .stdt x => encXNN 0xF#4 x 0x15#8
  | .stst x => encXNN 0xF#4 x 0x18#8
  | .adda x => encXNN 0xF#4 x 0x1E#8
  | .bcd x => encXNN 0xF#4 x 0x33#8
  | .stm x => encXNN 0xF#4 x 0x55#8
  | .ldm x => encXNN 0xF#4 x 0x65#8

/-- The bytes of an instruction in memory order (R65). -/
def encodeBytes (i : Instr) : List Byte := bytesOfWord (encode i)

/-- One row of the opcode map (R94). -/
structure OpcodeRow where
  mnemonic : String
  mask : Word
  value : Word
deriving DecidableEq, Repr

/-- Whether a word selects a row: `w AND mask = match` (R93). -/
def OpcodeRow.selects (row : OpcodeRow) (w : Word) : Bool := w &&& row.mask == row.value

/-- The row of R94 that an instruction belongs to. -/
def Instr.row : Instr → OpcodeRow
  | .cls => ⟨"CLS", 0xFFFF, 0x00E0⟩
  | .ret => ⟨"RET", 0xFFFF, 0x00EE⟩
  | .jp _ => ⟨"JP", 0xF000, 0x1000⟩
  | .call _ => ⟨"CALL", 0xF000, 0x2000⟩
  | .sei _ _ => ⟨"SEI", 0xF000, 0x3000⟩
  | .snei _ _ => ⟨"SNEI", 0xF000, 0x4000⟩
  | .ser _ _ => ⟨"SER", 0xF00F, 0x5000⟩
  | .ldi _ _ => ⟨"LDI", 0xF000, 0x6000⟩
  | .addi _ _ => ⟨"ADDI", 0xF000, 0x7000⟩
  | .mov _ _ => ⟨"MOV", 0xF00F, 0x8000⟩
  | .or _ _ => ⟨"OR", 0xF00F, 0x8001⟩
  | .and _ _ => ⟨"AND", 0xF00F, 0x8002⟩
  | .xor _ _ => ⟨"XOR", 0xF00F, 0x8003⟩
  | .add _ _ => ⟨"ADD", 0xF00F, 0x8004⟩
  | .sub _ _ => ⟨"SUB", 0xF00F, 0x8005⟩
  | .shr _ _ => ⟨"SHR", 0xF00F, 0x8006⟩
  | .subn _ _ => ⟨"SUBN", 0xF00F, 0x8007⟩
  | .shl _ _ => ⟨"SHL", 0xF00F, 0x800E⟩
  | .sner _ _ => ⟨"SNER", 0xF00F, 0x9000⟩
  | .lda _ => ⟨"LDA", 0xF000, 0xA000⟩
  | .jpv _ => ⟨"JPV", 0xF000, 0xB000⟩
  | .rnd _ _ => ⟨"RND", 0xF000, 0xC000⟩
  | .drw _ _ _ => ⟨"DRW", 0xF000, 0xD000⟩
  | .skp _ => ⟨"SKP", 0xF0FF, 0xE09E⟩
  | .sknp _ => ⟨"SKNP", 0xF0FF, 0xE0A1⟩
  | .lddt _ => ⟨"LDDT", 0xF0FF, 0xF007⟩
  | .wkey _ => ⟨"WKEY", 0xF0FF, 0xF00A⟩
  | .stdt _ => ⟨"STDT", 0xF0FF, 0xF015⟩
  | .stst _ => ⟨"STST", 0xF0FF, 0xF018⟩
  | .adda _ => ⟨"ADDA", 0xF0FF, 0xF01E⟩
  | .bcd _ => ⟨"BCD", 0xF0FF, 0xF033⟩
  | .stm _ => ⟨"STM", 0xF0FF, 0xF055⟩
  | .ldm _ => ⟨"LDM", 0xF0FF, 0xF065⟩

/-- The opcode map of R94, in its order. -/
def opcodeMap : List OpcodeRow :=
  [Instr.cls, .ret, .jp 0, .call 0, .sei 0 0, .snei 0 0, .ser 0 0, .ldi 0 0, .addi 0 0, .mov 0 0, .or 0 0].map Instr.row ++
  [Instr.and 0 0, .xor 0 0, .add 0 0, .sub 0 0, .shr 0 0, .subn 0 0, .shl 0 0, .sner 0 0, .lda 0, .jpv 0, .rnd 0 0].map Instr.row ++
  [Instr.drw 0 0 0, .skp 0, .sknp 0, .lddt 0, .wkey 0, .stdt 0, .stst 0, .adda 0, .bcd 0, .stm 0, .ldm 0].map Instr.row

/-- The instruction the decoder reads from the `nbits` low bits of `w`, laid out big-endian; an instruction is 16 bits long
(R90), so a higher bit set within `nbits` is refused. -/
def decodeTableWord (nbits w : Nat) : Option Instr :=
  let bits := w % 2 ^ nbits
  if bits < 2 ^ 16 then
    match decodeBytes (bytesOfWord (BitVec.ofNat 16 bits)) with
    | .ok (i, _) => some i
    | .error _ => none
  else none

end Sys2Proof
end

