-- ==== Sys2Proof/Config.lean ====
section
/-! DEFINITION. The parameters of this hardware (00_scope.md R5) and its two open ones: the font bytes and the random byte. -/

namespace Sys2Proof.Config

/-- `MEMSIZE`: 4096 bytes, addresses 0x000 to 0xFFF (R5, R28). -/
abbrev memSize : Nat := 4096

/-- `FONT_LEN`: the font fills 0x000 to 0x04F (R5, R35). -/
abbrev fontLen : Nat := 80

/-- `PROG_BASE`: where a program image is loaded, and `PC` after reset (R5). -/
abbrev progBase : Nat := 0x200

/-- `PROG_MAX`: the longest program image, in bytes (R5, R302). -/
abbrev progMax : Nat := 3584

/-- `FONT`: the open parameter of R35 (D14) at the default that rule prints, entry `g` at bytes `5 g` to `5 g + 4`.
PRESUMED (log entry 2), unsafe: the spec marks these bytes as general knowledge. No obligation rests on a value of them. -/
def font : List Byte :=
  [0xF0#8, 0x90#8, 0x90#8, 0x90#8, 0xF0#8] ++ [0x20#8, 0x60#8, 0x20#8, 0x20#8, 0x70#8] ++
  [0xF0#8, 0x10#8, 0xF0#8, 0x80#8, 0xF0#8] ++ [0xF0#8, 0x10#8, 0xF0#8, 0x10#8, 0xF0#8] ++
  [0x90#8, 0x90#8, 0xF0#8, 0x10#8, 0x10#8] ++ [0xF0#8, 0x80#8, 0xF0#8, 0x10#8, 0xF0#8] ++
  [0xF0#8, 0x80#8, 0xF0#8, 0x90#8, 0xF0#8] ++ [0xF0#8, 0x10#8, 0x20#8, 0x40#8, 0x40#8] ++
  [0xF0#8, 0x90#8, 0xF0#8, 0x90#8, 0xF0#8] ++ [0xF0#8, 0x90#8, 0xF0#8, 0x10#8, 0xF0#8] ++
  [0xF0#8, 0x90#8, 0xF0#8, 0x90#8, 0x90#8] ++ [0xE0#8, 0x90#8, 0xE0#8, 0x90#8, 0xE0#8] ++
  [0xF0#8, 0x80#8, 0x80#8, 0x80#8, 0xF0#8] ++ [0xE0#8, 0x90#8, 0x90#8, 0x90#8, 0xE0#8] ++
  [0xF0#8, 0x80#8, 0xF0#8, 0x80#8, 0xF0#8] ++ [0xF0#8, 0x80#8, 0xF0#8, 0x80#8, 0x80#8]

/-- The random byte of the `n`-th draw (R171, D8): "an arbitrary value 0 to 255 supplied afresh with every `STEP` and
constrained by nothing". A free value with no body (log entry 1). -/
opaque rnd : Nat → Byte

end Sys2Proof.Config
end

