-- ==== Sys2Proof/Machine/State.lean ====
section
/-! DEFINITION. Everything the spec gives the machine (10_state.md), as plain data, and the state after `RESET`. -/

namespace Sys2Proof.Machine

/-- The memory (R28): cells that differ from the reset contents, addresses strictly rising (log entry 5). -/
abbrev Memory := List Host.Cell

/-- The display buffer `FB[r][c]`, 32 rows of 64 one-bit pixels, `true` for a set pixel (R29). -/
abbrev Display := Vector (Vector Bool 64) 32

/-- The run state `RUN` (R32). -/
inductive RunState where
  /-- The last step executed an instruction, or none has run yet. -/
  | running
  /-- The last step found WKEY at `PC` with no key pressed. -/
  | awaitingKey
  /-- A terminal fault is recorded; `STEP` does nothing until a reset. -/
  | faulted
deriving DecidableEq, Repr

/-- The four terminal faults (R251). Taking one is a NEXT state (R250, `State.raise`) with the fault in the register `FAULT`;
no step answers `Host.Outcome.fault` (log entry 4), which is safe: nothing the hardware does is left out. -/
inductive Fault where
  /-- Raised by CALL with sixteen entries in use (R142). Safe: the spec's own fault. -/
  | stackOverflow
  /-- Raised by RET with an empty stack (R140). Safe: the spec's own fault. -/
  | stackUnderflow
  /-- Raised by the fetch above 0xFFE and by DRW, BCD, STM and LDM whose range passes 0xFFF (R62, R63). Safe: the spec's own
  fault, its decision D3. -/
  | addressFault
  /-- Raised by SKP and SKNP when `Vx` is above 15 (R230, R231). Safe: the spec's own fault, its decision D4. -/
  | keyIndexFault
deriving DecidableEq, Repr

/-- Why the model has no meaning for an instruction. No arm of `exec` answers it: every instruction has its meaning. -/
inductive Refusal where
  /-- Answered by an arm of `exec` whose instruction has no meaning yet (none). Safe: the model stops. -/
  | notModelled (mnemonic : String)
deriving DecidableEq, Repr

/-- The state of the core (10_state.md) and, last, two fields of the model's own for the free random byte. -/
structure State where
  /-- `V[0]` to `V[15]` (R20); `V[15]` is VF (R21). -/
  v : Vector Byte 16
  /-- The address register `I` (R22). -/
  i : Word
  /-- The program counter (R23, R24). -/
  pc : Word
  /-- The number of stack entries in use, 0 to 16 (R25). -/
  sp : Fin 17
  /-- `STACK[0]` to `STACK[15]`, of which `STACK[0]` to `STACK[SP-1]` are in use (R25). -/
  stack : Vector Word 16
  /-- The delay timer (R26). -/
  dt : Byte
  /-- The sound timer (R27). -/
  st : Byte
  /-- The 4096 bytes of memory (R28). -/
  mem : Memory
  /-- The display buffer (R29). -/
  fb : Display
  /-- The dirty flag (R30). -/
  dirty : Bool
  /-- The key latch, `true` for a pressed key (R31). -/
  key : Vector Bool 16
  /-- `RUN` (R32). -/
  run : RunState
  /-- `FAULT` (R33), `none` for code 0. -/
  fault : Option Fault
  /-- MODEL'S OWN (log entry 1): the byte the driver supplied with the coming `STEP(rnd)`, where it named one. -/
  rndIn : Option Byte
  /-- MODEL'S OWN (log entry 1): how many random bytes have been drawn. -/
  draws : Nat
deriving DecidableEq, Repr

/-- The answer of a meaning and of a step. -/
abbrev Answer := Host.Outcome State Fault Refusal

/-- The state after `RESET` (R38, R300); memory with nothing listed reads as the font and zeros (R301, `Memory.unlisted`).
The two fields of the model's own start absent and 0 (DESIGN CHOICE, log entry 1). -/
def State.reset : State where
  v := .replicate 16 0
  i := 0
  pc := 0x200
  sp := 0
  stack := .replicate 16 0
  dt := 0
  st := 0
  mem := []
  fb := .replicate 32 (.replicate 64 false)
  dirty := true
  key := .replicate 16 false
  run := .running
  fault := none
  rndIn := none
  draws := 0

end Sys2Proof.Machine
end

