-- ==== Sys2Proof/Machine/Ops.lean ====
section
/-! DEFINITION. The named operations over memory, registers, stack and display, the ways an instruction ends, and taking a fault. -/

namespace Sys2Proof.Machine

namespace Memory

/-- What an address that the memory does not list reads as: the reset contents, the font below 0x050 and 0 above
(R28, R300, R301; log entry 5). -/
def unlisted (a : Nat) : Byte := if a < Config.fontLen then Config.font.getD a 0 else 0

/-- `MemRead(a, 1)` (R10, R61). -/
def read : Memory → Nat → Byte
  | [], a => unlisted a
  | (k, b) :: rest, a => if k = a then b else read rest a

/-- List the address `a` with the byte `b`, keeping the order. -/
def insert : Memory → Nat → Byte → Memory
  | [], a, b => [(a, b)]
  | (k, c) :: rest, a, b =>
    if a < k then (a, b) :: (k, c) :: rest else if a = k then (a, b) :: rest else (k, c) :: insert rest a b

/-- Take the address `a` out of the list. -/
def erase : Memory → Nat → Memory
  | [], _ => []
  | (k, c) :: rest, a => if k = a then rest else (k, c) :: erase rest a

/-- `MemWrite(a, 1, b)` (R10, R61), keeping the canonical form: no entry equals what an unlisted address reads as. -/
def write (m : Memory) (a : Nat) (b : Byte) : Memory := if b = unlisted a then m.erase a else m.insert a b

/-- Single-byte writes at `a`, `a + 1`, … in ascending order (R65). -/
def writeBytes : Memory → Nat → List Byte → Memory
  | m, _, [] => m
  | m, a, b :: bs => writeBytes (m.write a b) (a + 1) bs

/-- Single-byte reads of the `len` bytes from `a` on (R65). -/
def readBytes (m : Memory) (a len : Nat) : List Byte := (List.range len).map fun k => m.read (a + k)

/-- The canonical form: addresses strictly rising and inside the 4096 bytes, no entry equal to what an unlisted address
reads as. Equal memories are then equal lists (log entry 5). -/
abbrev wf (m : Memory) : Prop :=
  m.Pairwise (fun c d => c.1 < d.1) ∧ ∀ c ∈ m, c.1 < Config.memSize ∧ c.2 ≠ unlisted c.1

end Memory

namespace Display

/-- The pixel `FB[r][c]` (R29). -/
def pixel (d : Display) (r : Fin 32) (c : Fin 64) : Bool := d[r][c]

/-- `FB[r][c] <- FB[r][c] XOR 1` (R211). -/
def flip (d : Display) (r : Fin 32) (c : Fin 64) : Display := d.set r (d[r].set c (!d[r][c]))

/-- All pixels 0 (R210). -/
def clear : Display := .replicate 32 (.replicate 64 false)

end Display

namespace State

/-! ### Registers -/

/-- `V[x]` (R20). -/
def getV (s : State) (x : Reg) : Byte := s.v[x]

/-- `V[x] <- b` (R20); no register is hard-wired. -/
def setV (s : State) (x : Reg) (b : Byte) : State := { s with v := s.v.set x b }

/-- `I <- a` (R22). -/
def setI (s : State) (a : Word) : State := { s with i := a }

/-- `DT <- b` (R26). -/
def setDt (s : State) (b : Byte) : State := { s with dt := b }

/-- `ST <- b` (R27). -/
def setSt (s : State) (b : Byte) : State := { s with st := b }

/-- The pixel `FB[r][c]` of the state (R29). -/
def pixel (s : State) (r : Fin 32) (c : Fin 64) : Bool := s.fb.pixel r c

/-- Write the display buffer and mark it dirty: 00E0 and Dxyn do both, whether or not a pixel changed (R30, C6). -/
def setDisplay (s : State) (d : Display) : State := { s with fb := d, dirty := true }

/-- The code that `RUN` holds (R32). -/
def runCode (s : State) : BitVec 2 :=
  match s.run with
  | .running => 0
  | .awaitingKey => 1
  | .faulted => 2

/-- The code that `FAULT` holds (R33, R251). -/
def faultCode (s : State) : BitVec 3 :=
  match s.fault with
  | none => 0
  | some .stackOverflow => 1
  | some .stackUnderflow => 2
  | some .addressFault => 3
  | some .keyIndexFault => 4

/-! ### Memory of the state -/

/-- `MEM[a]`. -/
def readMem (s : State) (a : Nat) : Byte := s.mem.read a

/-- Store bytes at `a` and above (R65). -/
def storeBytes (s : State) (a : Nat) (bs : List Byte) : State := { s with mem := s.mem.writeBytes a bs }

/-- The word at `PC`: `MEM[PC] * 256 + MEM[PC + 1]` (R65, R121). -/
def fetchWord (s : State) : Word := wordOfBytes (s.mem.read s.pc.toNat) (s.mem.read (s.pc.toNat + 1))

/-! ### The call stack (R25) -/

/-- Push, where an entry is free: `STACK[SP] <- a`, `SP <- SP + 1`. -/
def push (s : State) (a : Word) (free : s.sp.val < 16) : State :=
  { s with stack := s.stack.set s.sp.val a free, sp := ⟨s.sp.val + 1, by omega⟩ }

/-- The newest entry, where one is in use: `STACK[SP - 1]`. -/
def top (s : State) (used : 0 < s.sp.val) : Word := s.stack[s.sp.val - 1]'(by omega)

/-- Pop: `SP <- SP - 1`; the slot keeps its contents. -/
def pop (s : State) : State := { s with sp := ⟨s.sp.val - 1, by omega⟩ }

/-! ### The free random byte (R171, log entry 1) -/

/-- `rnd`: the byte the driver supplied with this step, or the next free byte where it named none. -/
def rndByte (s : State) : Byte := s.rndIn.getD (Config.rnd s.draws)

/-- The byte has been used: the next draw is a fresh one. -/
def consumeRnd (s : State) : State := { s with rndIn := none, draws := s.draws + 1 }

/-! ### How an instruction ends (R120, R123) -/

/-- The instruction completes with `PC <- a`, and `RUN <- Running` (R120). -/
def goTo (s : State) (a : Word) : State := { s with pc := a, run := .running }

/-- The sequential class: `PC <- PC + 2` (R123). -/
def advance (s : State) : State := s.goTo (s.pc + 2)

/-- The skip class: `PC <- PC + 4` where the condition holds, else `PC <- PC + 2` (R123, R124). -/
def skipIf (s : State) (c : Bool) : State := s.goTo (s.pc + if c then 4 else 2)

/-- WKEY with no key pressed: `RUN <- AwaitingKey`, nothing else (R120, R232). -/
def await (s : State) : State := { s with run := .awaitingKey }

/-- TAKING A FAULT, the one exception mechanism: `FAULT <- c`, `RUN <- Faulted`, nothing else; `PC` stays, no handler is
entered (R250, R255). No instruction returns from it: only `RESET` and a successful `LOAD` do (R256, Machine/Events.lean). -/
def raise (s : State) (f : Fault) : State := { s with fault := some f, run := .faulted }

end State

end Sys2Proof.Machine
end

