-- ==== Sys2Proof/Machine/Flags.lean ====
section
/-! DEFINITION. What the flag-writing instructions put in VF (10_state.md R21, 42_alu.md R172). -/

namespace Sys2Proof.Machine.Flag

/-- A flag as the byte VF receives: 1 or 0. -/
def byte (f : Bool) : Byte := if f then 1 else 0

/-- The carry of 8xy4: the true sum is above 255 (R166). -/
def carry (a b : Byte) : Bool := a.toNat + b.toNat > 255

/-- The complement of the borrow of `a - b`: 1 when `a >= b` (R167, R169). -/
def notBorrow (a b : Byte) : Bool := a.toNat ≥ b.toNat

/-- The bit that a right shift by one moves out: bit 0 (R168). -/
def outRight (a : Byte) : Bool := a.getLsbD 0

/-- The bit that a left shift by one moves out: bit 7 (R170). -/
def outLeft (a : Byte) : Bool := a.getLsbD 7

/-- The flag of Fx1E: the sum passes the top of memory (R191). -/
def passesTop (i : Word) (b : Byte) : Bool := i.toNat + b.toNat > 0xFFF

end Sys2Proof.Machine.Flag
end

