-- ==== Sys2Proof/Machine/Operands.lean ====
section
/-! DEFINITION. The operand forms: the zero-extended `nnn`, the data range from `I`, the key index and the pressed key. -/

namespace Sys2Proof.Machine

/-- `zext_16(nnn)` (R92). -/
def zext16 (nnn : Imm12) : Word := nnn.setWidth 16

/-- `zext_16(b)` of a byte (R147). -/
def zextByte (b : Byte) : Word := b.setWidth 16

/-- Whether the `len` bytes from `I` on all lie in 0x000..0xFFF; a range of no bytes always does (R62, R195). The addresses
are formed without wrap-around (R60). -/
def State.rangeOk (s : State) (len : Nat) : Bool := len = 0 ∨ s.i.toNat + len ≤ Config.memSize

/-- The range check made before the first write: the instruction ends as `done` does, or takes `AddressFault` (R62, R125). -/
def State.checkRange (s : State) (len : Nat) (done : State) : Answer :=
  if s.rangeOk len then .next done else .next (s.raise .addressFault)

/-- A byte as the index of a key, where it is one (R230). -/
def keyIndex (b : Byte) : Option Reg := if h : b.toNat < 16 then some ⟨b.toNat, h⟩ else none

/-- `KEY[k]` (R31). -/
def State.pressed (s : State) (k : Reg) : Bool := s.key[k]

/-- The least `k` with `KEY[k] = 1`, where a key is pressed (R232, the spec's decision D7). -/
def State.lowestKey (s : State) : Option Reg := (List.finRange 16).find? fun k => s.pressed k

/-- The three decimal digits of a byte: hundreds, tens, units, each in a byte of its own (R192). -/
def decimalDigits (b : Byte) : List Byte :=
  [BitVec.ofNat 8 (b.toNat / 100), BitVec.ofNat 8 (b.toNat / 10 % 10), BitVec.ofNat 8 (b.toNat % 10)]

end Sys2Proof.Machine
end

