-- ==== Sys2Proof/Machine/Alu.lean ====
section
/-! DEFINITION. Register load, 8-bit ALU and random instructions (42_alu.md). Statements run in the order the rules write
them, VF first, each reading the registers as the one before left them (R10, R21; the spec's decision D2, log entry 8). -/

namespace Sys2Proof.Machine

/-- `VF <- f`, for the flag of an instruction. -/
def State.setFlag (s : State) (f : Bool) : State := s.setV vF (Flag.byte f)

/-- 6xnn (R160). -/
def execLdi (x : Reg) (nn : Byte) (s : State) : Answer := .next (s.setV x nn).advance

/-- 7xnn (R161): modulo 256, VF is no flag here. -/
def execAddi (x : Reg) (nn : Byte) (s : State) : Answer := .next (s.setV x (s.getV x + nn)).advance

/-- 8xy0 (R162). -/
def execMov (x y : Reg) (s : State) : Answer := .next (s.setV x (s.getV y)).advance

/-- 8xy1 (R163). -/
def execOr (x y : Reg) (s : State) : Answer := .next (s.setV x (s.getV x ||| s.getV y)).advance

/-- 8xy2 (R164). -/
def execAnd (x y : Reg) (s : State) : Answer := .next (s.setV x (s.getV x &&& s.getV y)).advance

/-- 8xy3 (R165). -/
def execXor (x y : Reg) (s : State) : Answer := .next (s.setV x (s.getV x ^^^ s.getV y)).advance

/-- 8xy4 (R166): `sum` is formed before VF is written. -/
def execAdd (x y : Reg) (s : State) : Answer :=
  let sum := s.getV x + s.getV y
  let s1 := s.setFlag (Flag.carry (s.getV x) (s.getV y))
  .next (s1.setV x sum).advance

/-- 8xy5 (R167): the second statement reads `Vx` and `Vy` again, after VF is written. -/
def execSub (x y : Reg) (s : State) : Answer :=
  let s1 := s.setFlag (Flag.notBorrow (s.getV x) (s.getV y))
  .next (s1.setV x (s1.getV x - s1.getV y)).advance

/-- 8xy6 (R168): `y` is ignored (R95). -/
def execShr (x _y : Reg) (s : State) : Answer :=
  let s1 := s.setFlag (Flag.outRight (s.getV x))
  .next (s1.setV x (s1.getV x >>> 1)).advance

/-- 8xy7 (R169): the second statement reads `Vx` and `Vy` again, after VF is written. -/
def execSubn (x y : Reg) (s : State) : Answer :=
  let s1 := s.setFlag (Flag.notBorrow (s.getV y) (s.getV x))
  .next (s1.setV x (s1.getV y - s1.getV x)).advance

/-- 8xyE (R170): `y` is ignored (R95). -/
def execShl (x _y : Reg) (s : State) : Answer :=
  let s1 := s.setFlag (Flag.outLeft (s.getV x))
  .next (s1.setV x (s1.getV x <<< 1)).advance

/-- Cxnn (R171): the byte `rnd` of this step, masked. -/
def execRnd (x : Reg) (nn : Byte) (s : State) : Answer := .next (s.setV x (s.rndByte &&& nn)).consumeRnd.advance

end Sys2Proof.Machine
end

