-- ==== Sys2Proof/Machine/ControlFlow.lean ====
section
/-! DEFINITION. Control transfer: RET, JP, CALL, the skips on registers, JPV (41_control_flow.md). -/

namespace Sys2Proof.Machine

/-- 00EE (R140). -/
def execRet (s : State) : Answer :=
  if h : 0 < s.sp.val then .next (s.pop.goTo (s.top h)) else .next (s.raise .stackUnderflow)

/-- 1nnn (R141). -/
def execJp (nnn : Imm12) (s : State) : Answer := .next (s.goTo (zext16 nnn))

/-- 2nnn (R142): `PC` is the address of the call. -/
def execCall (nnn : Imm12) (s : State) : Answer :=
  if h : s.sp.val < 16 then .next ((s.push (s.pc + 2) h).goTo (zext16 nnn)) else .next (s.raise .stackOverflow)

/-- 3xnn (R143). -/
def execSei (x : Reg) (nn : Byte) (s : State) : Answer := .next (s.skipIf (s.getV x == nn))

/-- 4xnn (R144). -/
def execSnei (x : Reg) (nn : Byte) (s : State) : Answer := .next (s.skipIf (s.getV x != nn))

/-- 5xy0 (R145). -/
def execSer (x y : Reg) (s : State) : Answer := .next (s.skipIf (s.getV x == s.getV y))

/-- 9xy0 (R146). -/
def execSner (x y : Reg) (s : State) : Answer := .next (s.skipIf (s.getV x != s.getV y))

/-- Bnnn (R147): a 16-bit sum, not reduced modulo 4096. -/
def execJpv (nnn : Imm12) (s : State) : Answer := .next (s.goTo (zext16 nnn + zextByte (s.getV 0)))

end Sys2Proof.Machine
end

