-- ==== Sys2Proof/Machine/Display.lean ====
section
/-! DEFINITION. Display: CLS, and DRW, the sprite XOR rasterizer (44_display.md). Geometry and edges as R212 and R213 state
them, the spec's decisions D5 and D6 (log entry 10). -/

namespace Sys2Proof.Machine

/-- A sprite being drawn: the display so far, and whether a pixel has gone from set to clear (`hit` of R211). -/
structure Drawing where
  fb : Display
  hit : Bool
deriving DecidableEq, Repr

/-- One set sprite bit at row `r`, column `c`: collision test, then XOR (R211). -/
def Drawing.plot (d : Drawing) (r : Fin 32) (c : Fin 64) : Drawing :=
  { fb := d.fb.flip r c, hit := d.hit || d.fb.pixel r c }

/-- The display row of sprite row `k` whose top edge is at `py`: `(py + k) mod 32` (R213). -/
def spriteRow (py : Byte) (k : Nat) : Fin 32 := Fin.ofNat 32 (py.toNat + k)

/-- The display column of sprite column `j` whose left edge is at `px`: `(px + j) mod 64` (R213). -/
def spriteCol (px : Byte) (j : Nat) : Fin 64 := Fin.ofNat 64 (px.toNat + j)

/-- One sprite row, the byte `b`, bit 7 leftmost (R212): columns `j` = 0 to 7 in order. -/
def Drawing.row (d : Drawing) (px : Byte) (r : Fin 32) (b : Byte) : Drawing :=
  (List.range 8).foldl (fun d j => if b.getLsbD (7 - j) then d.plot r (spriteCol px j) else d) d

/-- Sprite rows `k`, `k + 1`, … in order, one byte each (R211). -/
def Drawing.rows : Drawing → (px py : Byte) → (k : Nat) → List Byte → Drawing
  | d, _, _, _, [] => d
  | d, px, py, k, b :: bs => (d.row px (spriteRow py k) b).rows px py (k + 1) bs

/-- 00E0 (R210). -/
def execCls (s : State) : Answer := .next (s.setDisplay Display.clear).advance

/-- The sprite of Dxyn drawn on the display of `s` (R211). -/
def State.drawing (s : State) (x y n : Reg) : Drawing :=
  Drawing.rows ⟨s.fb, false⟩ (s.getV x) (s.getV y) 0 (s.mem.readBytes s.i.toNat n.val)

/-- Dxyn (R211): the coordinates are read before VF is written; no byte is read when `n = 0`. -/
def execDrw (x y n : Reg) (s : State) : Answer :=
  let d := s.drawing x y n
  s.checkRange n.val ((s.setFlag d.hit).setDisplay d.fb).advance

end Sys2Proof.Machine
end

