-- ==== Sys2Proof/Machine/IndexMemory.lean ====
section
/-! DEFINITION. The address register and the memory transfers: LDA, ADDA, BCD, STM, LDM (43_index_memory.md). -/

namespace Sys2Proof.Machine

/-- Annn (R190). -/
def execLda (nnn : Imm12) (s : State) : Answer := .next (s.setI (zext16 nnn)).advance

/-- Fx1E (R191): `sum` is formed before VF is written; `I` wraps modulo 4096. -/
def execAdda (x : Reg) (s : State) : Answer :=
  let sum := s.i.toNat + (s.getV x).toNat
  .next ((s.setFlag (Flag.passesTop s.i (s.getV x))).setI (BitVec.ofNat 16 (sum % 4096))).advance

/-- Fx33 (R192). -/
def execBcd (x : Reg) (s : State) : Answer :=
  s.checkRange 3 (s.storeBytes s.i.toNat (decimalDigits (s.getV x))).advance

/-- Fx55 (R193): `x + 1` bytes, `I` is not changed. -/
def execStm (x : Reg) (s : State) : Answer :=
  s.checkRange (x.val + 1) (s.storeBytes s.i.toNat (s.v.toList.take (x.val + 1))).advance

/-- `V[0]` to `V[x]` from the bytes at `I` and above; the registers above `x` stay (R194). -/
def State.loadRegs (s : State) (x : Reg) : State :=
  { s with v := .ofFn fun k => if k ≤ x then s.readMem (s.i.toNat + k.val) else s.getV k }

/-- Fx65 (R194): `x + 1` bytes, `I` is not changed. -/
def execLdm (x : Reg) (s : State) : Answer := s.checkRange (x.val + 1) (s.loadRegs x).advance

end Sys2Proof.Machine
end

