-- ==== Sys2Proof/Machine/KeysTimers.lean ====
section
/-! DEFINITION. Keys and timers: SKP, SKNP, WKEY, LDDT, STDT, STST (45_keys_timers.md). -/

namespace Sys2Proof.Machine

/-- Ex9E (R230). -/
def execSkp (x : Reg) (s : State) : Answer :=
  match keyIndex (s.getV x) with
  | some k => .next (s.skipIf (s.pressed k))
  | none => .next (s.raise .keyIndexFault)

/-- ExA1 (R231). -/
def execSknp (x : Reg) (s : State) : Answer :=
  match keyIndex (s.getV x) with
  | some k => .next (s.skipIf (!s.pressed k))
  | none => .next (s.raise .keyIndexFault)

/-- Fx0A (R232): the lowest pressed key, or a waiting step that changes nothing but `RUN`. -/
def execWkey (x : Reg) (s : State) : Answer :=
  match s.lowestKey with
  | some k => .next (s.setV x (BitVec.ofNat 8 k.val)).advance
  | none => .next s.await

/-- Fx07 (R233). -/
def execLddt (x : Reg) (s : State) : Answer := .next (s.setV x s.dt).advance

/-- Fx15 (R234). -/
def execStdt (x : Reg) (s : State) : Answer := .next (s.setDt (s.getV x)).advance

/-- Fx18 (R235): never raises the tone edge. -/
def execStst (x : Reg) (s : State) : Answer := .next (s.setSt (s.getV x)).advance

end Sys2Proof.Machine
end

