-- ==== Sys2Proof/Machine/Dispatch.lean ====
section
/-! DEFINITION. The dispatch: one arm per instruction, each one call of its meaning. -/

namespace Sys2Proof.Machine

def exec (i : Instr) (s : State) : Host.Outcome State Fault Refusal :=
  match i with
  | .cls => Sys2Proof.Machine.execCls s
  | .ret => Sys2Proof.Machine.execRet s
  | .jp nnn => Sys2Proof.Machine.execJp nnn s
  | .call nnn => Sys2Proof.Machine.execCall nnn s
  | .sei x nn => Sys2Proof.Machine.execSei x nn s
  | .snei x nn => Sys2Proof.Machine.execSnei x nn s
  | .ser x y => Sys2Proof.Machine.execSer x y s
  | .ldi x nn => Sys2Proof.Machine.execLdi x nn s
  | .addi x nn => Sys2Proof.Machine.execAddi x nn s
  | .mov x y => Sys2Proof.Machine.execMov x y s
  | .or x y => Sys2Proof.Machine.execOr x y s
  | .and x y => Sys2Proof.Machine.execAnd x y s
  | .xor x y => Sys2Proof.Machine.execXor x y s
  | .add x y => Sys2Proof.Machine.execAdd x y s
  | .sub x y => Sys2Proof.Machine.execSub x y s
  | .shr x y => Sys2Proof.Machine.execShr x y s
  | .subn x y => Sys2Proof.Machine.execSubn x y s
  | .shl x y => Sys2Proof.Machine.execShl x y s
  | .sner x y => Sys2Proof.Machine.execSner x y s
  | .lda nnn => Sys2Proof.Machine.execLda nnn s
  | .jpv nnn => Sys2Proof.Machine.execJpv nnn s
  | .rnd x nn => Sys2Proof.Machine.execRnd x nn s
  | .drw x y n => Sys2Proof.Machine.execDrw x y n s
  | .skp x => Sys2Proof.Machine.execSkp x s
  | .sknp x => Sys2Proof.Machine.execSknp x s
  | .lddt x => Sys2Proof.Machine.execLddt x s
  | .wkey x => Sys2Proof.Machine.execWkey x s
  | .stdt x => Sys2Proof.Machine.execStdt x s
  | .stst x => Sys2Proof.Machine.execStst x s
  | .adda x => Sys2Proof.Machine.execAdda x s
  | .bcd x => Sys2Proof.Machine.execBcd x s
  | .stm x => Sys2Proof.Machine.execStm x s
  | .ldm x => Sys2Proof.Machine.execLdm x s

end Sys2Proof.Machine
end

