-- ==== Sys2Proof/Machine/Step.lean ====
section
/-! DEFINITION. The event `STEP` (40_step_cycle.md R120), and the placing of a word where the next step fetches it. -/

namespace Sys2Proof.Machine

/-- One `STEP` (R120), in the order of R254: nothing while `Faulted` (R127), the fetch check (R63, R121), decoding (R122),
then the instruction, or the step over an `Unknown` word (R253). The byte `rnd` of the step is in the state
(`State.rndByte`, log entry 1); the step's result is `stepResult` of Machine/Events.lean (log entry 4). -/
def step (s : State) : Host.Outcome State Fault Refusal :=
  if s.run = .faulted then .next s
  else if s.pc.toNat > 0xFFE then .next (s.raise .addressFault)
  else
    match decode s.fetchWord with
    | .ok i => exec i s
    | .error _ => .next s.advance

/-- The state with the instruction of the `nbits` low bits of `w` stored big-endian at `PC` and `PC + 1`, where the next step
fetches (R65, R121). That step runs it where `RUN` is not `Faulted` and `PC` is at most 0xFFE, as after reset. It stands for
the driver's `LOAD` (log entry 6). -/
def State.withFetchWord (s : State) (nbits w : Nat) : State :=
  s.storeBytes s.pc.toNat (bytesOfWord (BitVec.ofNat 16 (w % 2 ^ nbits)))

end Sys2Proof.Machine
end

