-- ==== Sys2Proof/WellFormed.lean ====
section
/-! DEFINITION. What the spec requires of an instruction's operands (30_encoding.md R92) and of a program image (R302).
The operand types of `Instr` are exactly as wide as the fields, so every term of `Instr` passes (Laws/Decode.lean proves it);
the checks on plain numbers are what an assembler (R100) asks before it builds one. -/

namespace Sys2Proof.WellFormed

/-- A register number is 0 to 15 (R20, R92). -/
def regOk (r : Nat) : Bool := r < 16

/-- A sprite row count is 0 to 15 (R92). -/
def rowsOk (n : Nat) : Bool := n < 16

/-- An immediate `nn` is 0 to 255 (R92). -/
def immOk (nn : Nat) : Bool := nn < 256

/-- An immediate `nnn` is 0 to 4095 (R92). -/
def addrOk (nnn : Nat) : Bool := nnn < 4096

/-- An image that `LOAD` accepts is at most 3584 bytes long; nothing else is asked of it (R302, R268). -/
def imageOk (bytes : List Byte) : Bool := bytes.length ≤ Config.progMax

/-- Every operand of the instruction is in the range R92 gives it. -/
def instrOk : Instr → Bool
  | .cls | .ret => true
  | .jp nnn | .call nnn | .lda nnn | .jpv nnn => addrOk nnn.toNat
  | .sei x nn | .snei x nn | .ldi x nn | .addi x nn | .rnd x nn => regOk x.val && immOk nn.toNat
  | .ser x y | .sner x y | .mov x y | .or x y | .and x y | .xor x y => regOk x.val && regOk y.val
  | .add x y | .sub x y | .shr x y | .subn x y | .shl x y => regOk x.val && regOk y.val
  | .drw x y n => regOk x.val && regOk y.val && rowsOk n.val
  | .skp x | .sknp x | .lddt x | .wkey x | .stdt x | .stst x => regOk x.val
  | .adda x | .bcd x | .stm x | .ldm x => regOk x.val

end Sys2Proof.WellFormed
end

