-- ==== Sys2Proof/Machine/Events.lean ====
section
/-! DEFINITION. The six events the driver invokes (00_scope.md R6), their results, and the step result (R7). `step` of
Machine/Step.lean is `STEP`; the rest of the machine's life is here (log entry 3). -/

namespace Sys2Proof.Machine

/-- The step result (R7). The code of `fault` is the content of the register `FAULT` (R33). -/
inductive StepResult where
  | ok
  | unknownOpcode (w : Word)
  | waiting
  | fault (code : BitVec 3)
deriving DecidableEq, Repr

/-- The result of the step that took `before` to `after`: an output, not state (R36); `RUN` and `FAULT` hold the rest (R120, R267). -/
def stepResult (before after : State) : StepResult :=
  match after.run with
  | .faulted => .fault after.faultCode
  | .awaitingKey => .waiting
  | .running =>
    match decode before.fetchWord with
    | .ok _ => .ok
    | .error _ => .unknownOpcode before.fetchWord

/-- The event `RESET` (R300): every element of the state at its reset value. The count of draws is no element of the
machine's state and goes on, so that the bytes drawn after a reset are free too (log entry 1). -/
def State.doReset (s : State) : State := { State.reset with draws := s.draws }

/-- The event `LOAD(bytes)` (R302): the length check first, then a reset, then the copy; whether it succeeded. -/
def State.load (s : State) (bytes : List Byte) : State × Bool :=
  if WellFormed.imageOk bytes then (s.doReset.storeBytes Config.progBase bytes, true) else (s, false)

/-- A timer counts down to 0 and stays there (R260). -/
def countDown (t : Byte) : Byte := if t = 0 then 0 else t - 1

/-- The event `TICK` (R260) and its bit `tone` (R261). -/
def State.tick (s : State) : State × Bool := ({ s with dt := countDown s.dt, st := countDown s.st }, s.st = 1)

/-- The event `KEYWRITE(k, b)` (R264). -/
def State.keyWrite (s : State) (k : Reg) (b : Bool) : State := { s with key := s.key.set k b }

/-- The event `DIRTYCLEAR` (R266). -/
def State.dirtyClear (s : State) : State := { s with dirty := false }

/-- The events (R6). -/
inductive Event where
  | reset
  | load (bytes : List Byte)
  | step (rnd : Byte)
  | tick
  | keyWrite (k : Reg) (b : Bool)
  | dirtyClear
deriving DecidableEq, Repr

/-- What an event returns to the driver (R6). -/
inductive EventResult where
  /-- RESET, KEYWRITE and DIRTYCLEAR return nothing. -/
  | none
  /-- LOAD: `Ok` for true, `LoadError` for false (R252, R302). -/
  | loaded (ok : Bool)
  /-- STEP. -/
  | stepped (r : StepResult)
  /-- TICK. -/
  | tone (edge : Bool)
deriving DecidableEq, Repr

/-- `STEP(rnd)` with the byte `rnd` that the driver names (R120, R263); the byte does not outlive the step (R36). -/
def State.stepWith (s : State) (rnd : Byte) : Host.Outcome (State × StepResult) Fault Refusal :=
  match Machine.step { s with rndIn := some rnd } with
  | .next t => .next ({ t with rndIn := none }, stepResult s t)
  | .fault f => .fault f
  | .refused r => .refused r

/-- One event, on any state (R6; every event is accepted in every run state, the spec's decision D16). -/
def State.event (s : State) : Event → Host.Outcome (State × EventResult) Fault Refusal
  | .reset => .next (s.doReset, .none)
  | .load bytes => .next ((s.load bytes).1, .loaded (s.load bytes).2)
  | .step rnd =>
    match s.stepWith rnd with
    | .next (t, r) => .next (t, .stepped r)
    | .fault f => .fault f
    | .refused r => .refused r
  | .tick => .next (s.tick.1, .tone s.tick.2)
  | .keyWrite k b => .next (s.keyWrite k b, .none)
  | .dirtyClear => .next (s.dirtyClear, .none)

/-- The frame export: all of `FB`, and `DIRTY`, read between events and without effect (R265). -/
def State.exportFrame (s : State) : Display × Bool := (s.fb, s.dirty)

/-- The status export: the codes of `RUN` and `FAULT`, read between events and without effect (R267). -/
def State.exportStatus (s : State) : BitVec 2 × BitVec 3 := (s.runCode, s.faultCode)

/-- The first event after power-on, before which every piece of state is unspecified: `RESET`, or a `LOAD` that succeeds;
no other event has a meaning then (R39, R303; the spec's decision D15). -/
def firstEvent : Event → Option (State × EventResult)
  | .reset => some (State.reset, .none)
  | .load bytes => if WellFormed.imageOk bytes then some ((State.reset.load bytes).1, .loaded true) else none
  | .step _ | .tick | .keyWrite _ _ | .dirtyClear => none

/-- A sequence of events in the driver's order, with what each returned (R6, R72). -/
def State.events (s : State) : List Event → Host.Outcome (State × List EventResult) Fault Refusal
  | [] => .next (s, [])
  | e :: es =>
    match s.event e with
    | .fault f => .fault f
    | .refused r => .refused r
    | .next (t, r) =>
      match t.events es with
      | .fault f => .fault f
      | .refused q => .refused q
      | .next (u, rs) => .next (u, r :: rs)

end Sys2Proof.Machine
end

