-- ==== Sys2Proof/Safety.lean ====
section
/-! DEFINITION. The words claims are stated in: the next state of an answer, what a step leaves unchanged, the pixels a sprite
covers, and the invariant of the states that runs reach. -/

namespace Sys2Proof.Machine

/-- The next state of an answer, where it is one. -/
def nextOf : Answer → Option State
  | .next t => some t
  | _ => none

/-- The parts of the state beside the general registers, `PC`, `RUN` and `KEY`. -/
inductive Part where
  | i
  | stack
  | dt
  | st
  | mem
  | display
  | dirty
  | fault
  | draws
deriving DecidableEq, Repr

/-- A part reads the same in both states; memory is compared byte by byte and the display pixel by pixel. -/
def Part.kept (s t : State) : Part → Prop
  | .i => t.i = s.i
  | .stack => t.sp = s.sp ∧ ∀ (j : Nat) (h : j < 16), t.stack[j] = s.stack[j]
  | .dt => t.dt = s.dt
  | .st => t.st = s.st
  | .mem => ∀ a, t.readMem a = s.readMem a
  | .display => ∀ r c, t.pixel r c = s.pixel r c
  | .dirty => t.dirty = s.dirty
  | .fault => t.fault = s.fault
  | .draws => t.rndIn = s.rndIn ∧ t.draws = s.draws

/-- From `s` to `t` nothing changed but the registers `ws`, the parts `ps`, and `PC` and `RUN`, which a statement gives
itself. The key latch is never changed by the engine (R31). -/
def Frame (s t : State) (ws : List Reg) (ps : List Part) : Prop :=
  (∀ r, r ∉ ws → t.getV r = s.getV r) ∧ (∀ k, t.pressed k = s.pressed k) ∧ ∀ p, p ∉ ps → p.kept s t

/-- A terminal fault was taken: `FAULT` and `RUN` are written, `PC` and all else are as before (R250). -/
def FaultTaken (s t : State) (f : Fault) : Prop :=
  t.fault = some f ∧ t.run = .faulted ∧ t.pc = s.pc ∧ Frame s t [] [.fault]

/-- Bytes outside `[a, a + len)` read as before. -/
def KeepsMemOutside (s t : State) (a len : Nat) : Prop := ∀ k, (k < a ∨ a + len ≤ k) → t.readMem k = s.readMem k

/-- A set bit of the sprite of Dxyn falls on the pixel at row `r`, column `c` (R211, R212, R213). -/
def SpriteCovers (s : State) (x y n : Reg) (r : Fin 32) (c : Fin 64) : Prop :=
  ∃ k < n.val, ∃ j < 8, r.val = ((s.getV y).toNat + k) % 32 ∧ c.val = ((s.getV x).toNat + j) % 64 ∧
    (s.readMem (s.i.toNat + k)).getLsbD (7 - j) = true

/-- What holds of every state that a run from `RESET` reaches. -/
structure Inv (s : State) : Prop where
  /-- The memory keeps its canonical form, inside the 4096 bytes. -/
  mem : s.mem.wf
  /-- `I <= 0xFFF` (R22). -/
  i : s.i.toNat ≤ 0xFFF
  /-- `PC <= 0x10FE` (R24). -/
  pc : s.pc.toNat ≤ 0x10FE
  /-- A return address in use is at most 0x1000 (R24, R140). -/
  stack : ∀ (j : Nat) (h : j < 16), j < s.sp.val → s.stack[j].toNat ≤ 0x1000
  /-- `FAULT != 0` exactly when `RUN = Faulted` (R33). -/
  fault : s.run = .faulted ↔ s.fault ≠ none
  /-- In `AwaitingKey` the word at `PC` is an Fx0A (R32, R120). -/
  wait : s.run = .awaitingKey → s.pc.toNat ≤ 0xFFE ∧ ∃ x, decode s.fetchWord = .ok (.wkey x)

/-- The state with everything hidden that no instruction reads: `ST` and `DIRTY` (R27, R30, R37). -/
def hideOutputs (s : State) : State := { s with st := 0, dirty := false }

/-- `k` ticks of the timers (R260). -/
def tickN : Nat → State → State
  | 0, s => s
  | k + 1, s => (tickN k s).tick.1

end Sys2Proof.Machine
end

