-- ==== Sys2Proof/Certificates/Slice0/Obligations.lean ====
section
/-! DEFINITION. The statements for the provers, from the numbered rules of spec/. Where a statement rests on a decision the
spec marks as its own, its docstring says so. -/

open Sys2Proof Sys2Proof.Machine

/-! ### Encoding (30_encoding.md) -/

/-- Decoding the word, and the bytes, of any instruction gives it back with every operand (R91, R92, R94). -/
def Obligations.DecodeOfEncode : Prop :=
  ∀ (i : Instr) (rest : List Byte),
    decode (encode i) = .ok i ∧ decodeBytes (encodeBytes i ++ rest) = .ok (i, rest)

/-- A word that decodes is the word of its instruction: no bit of a decoded word is dropped, the ignored `y` of SHR and SHL
included (R92, R95). -/
def Obligations.EncodeOfDecode : Prop :=
  ∀ (w : Word) (i : Instr), decode w = .ok i → encode i = w

/-- R91 and the pattern column of R94: each digit of a pattern is one nibble of the word, most significant first, and a field
fills the bits its letters stand for. One line for each instruction, as the number the word is; every operand value. -/
def Obligations.WordsLayOutTheirFields : Prop :=
  ∀ (x y n : Reg) (nn : Byte) (nnn : Imm12),
    (decode 0x00E0 = .ok .cls ∧ decode 0x00EE = .ok .ret) ∧
    (decode (BitVec.ofNat 16 (0x1000 + nnn.toNat)) = .ok (.jp nnn) ∧
      decode (BitVec.ofNat 16 (0x2000 + nnn.toNat)) = .ok (.call nnn) ∧
      decode (BitVec.ofNat 16 (0xA000 + nnn.toNat)) = .ok (.lda nnn) ∧
      decode (BitVec.ofNat 16 (0xB000 + nnn.toNat)) = .ok (.jpv nnn)) ∧
    (decode (BitVec.ofNat 16 (0x3000 + 0x100 * x.val + nn.toNat)) = .ok (.sei x nn) ∧
      decode (BitVec.ofNat 16 (0x4000 + 0x100 * x.val + nn.toNat)) = .ok (.snei x nn) ∧
      decode (BitVec.ofNat 16 (0x6000 + 0x100 * x.val + nn.toNat)) = .ok (.ldi x nn) ∧
      decode (BitVec.ofNat 16 (0x7000 + 0x100 * x.val + nn.toNat)) = .ok (.addi x nn) ∧
      decode (BitVec.ofNat 16 (0xC000 + 0x100 * x.val + nn.toNat)) = .ok (.rnd x nn)) ∧
    (decode (BitVec.ofNat 16 (0x5000 + 0x100 * x.val + 0x10 * y.val)) = .ok (.ser x y) ∧
      decode (BitVec.ofNat 16 (0x8000 + 0x100 * x.val + 0x10 * y.val)) = .ok (.mov x y) ∧
      decode (BitVec.ofNat 16 (0x8001 + 0x100 * x.val + 0x10 * y.val)) = .ok (.or x y) ∧
      decode (BitVec.ofNat 16 (0x8002 + 0x100 * x.val + 0x10 * y.val)) = .ok (.and x y) ∧
      decode (BitVec.ofNat 16 (0x8003 + 0x100 * x.val + 0x10 * y.val)) = .ok (.xor x y) ∧
      decode (BitVec.ofNat 16 (0x8004 + 0x100 * x.val + 0x10 * y.val)) = .ok (.add x y) ∧
      decode (BitVec.ofNat 16 (0x8005 + 0x100 * x.val + 0x10 * y.val)) = .ok (.sub x y) ∧
      decode (BitVec.ofNat 16 (0x8006 + 0x100 * x.val + 0x10 * y.val)) = .ok (.shr x y) ∧
      decode (BitVec.ofNat 16 (0x8007 + 0x100 * x.val + 0x10 * y.val)) = .ok (.subn x y) ∧
      decode (BitVec.ofNat 16 (0x800E + 0x100 * x.val + 0x10 * y.val)) = .ok (.shl x y) ∧
      decode (BitVec.ofNat 16 (0x9000 + 0x100 * x.val + 0x10 * y.val)) = .ok (.sner x y)) ∧
    decode (BitVec.ofNat 16 (0xD000 + 0x100 * x.val + 0x10 * y.val + n.val)) = .ok (.drw x y n) ∧
    (decode (BitVec.ofNat 16 (0xE09E + 0x100 * x.val)) = .ok (.skp x) ∧
      decode (BitVec.ofNat 16 (0xE0A1 + 0x100 * x.val)) = .ok (.sknp x) ∧
      decode (BitVec.ofNat 16 (0xF007 + 0x100 * x.val)) = .ok (.lddt x) ∧
      decode (BitVec.ofNat 16 (0xF00A + 0x100 * x.val)) = .ok (.wkey x) ∧
      decode (BitVec.ofNat 16 (0xF015 + 0x100 * x.val)) = .ok (.stdt x) ∧
      decode (BitVec.ofNat 16 (0xF018 + 0x100 * x.val)) = .ok (.stst x) ∧
      decode (BitVec.ofNat 16 (0xF01E + 0x100 * x.val)) = .ok (.adda x) ∧
      decode (BitVec.ofNat 16 (0xF033 + 0x100 * x.val)) = .ok (.bcd x) ∧
      decode (BitVec.ofNat 16 (0xF055 + 0x100 * x.val)) = .ok (.stm x) ∧
      decode (BitVec.ofNat 16 (0xF065 + 0x100 * x.val)) = .ok (.ldm x))

/-- R93 and R94: a word selects an instruction exactly when `w AND mask = match` for its row, no word matches two rows, and a
word that matches none is `Unknown`. -/
def Obligations.DecodeFollowsOpcodeMap : Prop :=
  opcodeMap.length = 33 ∧
  (∀ (w : Word) (row : OpcodeRow), row ∈ opcodeMap →
    (w &&& row.mask = row.value ↔ ∃ i, decode w = .ok i ∧ i.row = row)) ∧
  (∀ (w : Word) (r q : OpcodeRow), r ∈ opcodeMap → q ∈ opcodeMap →
    w &&& r.mask = r.value → w &&& q.mask = q.value → r = q) ∧
  (∀ w : Word, decode w = .error (.unknownOpcode w) ↔ ∀ row ∈ opcodeMap, w &&& row.mask ≠ row.value)

/-- The unknown words are exactly those of the table in R96, family by family. -/
def Obligations.UnknownWordsByFamily : Prop :=
  ∀ w : Word, decode w = .error (.unknownOpcode w) ↔
    (w >>> 12 = 0x0 ∧ w ≠ 0x00E0 ∧ w ≠ 0x00EE) ∨
    (w >>> 12 = 0x5 ∧ w &&& 0xF ≠ 0) ∨
    (w >>> 12 = 0x8 ∧ w &&& 0xF ∈ ([0x8, 0x9, 0xA, 0xB, 0xC, 0xD, 0xF] : List Word)) ∨
    (w >>> 12 = 0x9 ∧ w &&& 0xF ≠ 0) ∨
    (w >>> 12 = 0xE ∧ w &&& 0xFF ∉ ([0x9E, 0xA1] : List Word)) ∨
    (w >>> 12 = 0xF ∧ w &&& 0xFF ∉ ([0x07, 0x0A, 0x15, 0x18, 0x1E, 0x33, 0x55, 0x65] : List Word))

/-- Words of the spec's own examples, one or two a family, decode to the instruction they stand for. -/
def Obligations.SampleWordsDecode : Prop :=
  decode 0x00EE = .ok .ret ∧ decode 0x1234 = .ok (.jp 0x234) ∧ decode 0x3100 = .ok (.sei 1 0x00) ∧
  decode 0x5120 = .ok (.ser 1 2) ∧ decode 0x60FA = .ok (.ldi 0 0xFA) ∧ decode 0x8014 = .ok (.add 0 1) ∧
  decode 0x840E = .ok (.shl 4 0) ∧ decode 0xC30F = .ok (.rnd 3 0x0F) ∧ decode 0xA300 = .ok (.lda 0x300) ∧
  decode 0xD012 = .ok (.drw 0 1 2) ∧ decode 0xE39E = .ok (.skp 3) ∧ decode 0xF265 = .ok (.ldm 2) ∧
  decode 0xF029 = .error (.unknownOpcode 0xF029)

/-! ### The step (40_step_cycle.md, 60_exceptions.md) -/

/-- Where the core is not faulted and `PC` is at most 0xFFE, and the big-endian word at `PC`, odd or even, decodes to an
instruction, the step is that instruction's execution (R120, R121, R64). -/
def Obligations.StepRunsDecoded : Prop :=
  ∀ (s : State) (i : Instr), s.run ≠ .faulted → s.pc.toNat ≤ 0xFFE →
    decode (s.readMem s.pc.toNat ++ s.readMem (s.pc.toNat + 1)) = .ok i → step s = exec i s

/-- An `Unknown` word is stepped over: `PC` advances by 2, `RUN` is `Running`, nothing else changes, and the step reports the
word (R96, R253; the form of the report is the spec's decision D11). -/
def Obligations.StepOverUnknownWord : Prop :=
  ∀ (s : State) (w : Word), s.run ≠ .faulted → s.pc.toNat ≤ 0xFFE →
    w = s.readMem s.pc.toNat ++ s.readMem (s.pc.toNat + 1) → (∀ i, decode w ≠ .ok i) →
    ∃ t, step s = .next t ∧ t.pc = s.pc + 2 ∧ t.run = .running ∧ Frame s t [] [] ∧ stepResult s t = .unknownOpcode w

/-- A step while faulted changes no state and reports the recorded fault (R127; for AddressFault and KeyIndexFault this is
the spec's decision D10). -/
def Obligations.StepWhileFaulted : Prop :=
  ∀ s : State, s.run = .faulted → step s = .next s ∧ stepResult s s = .fault s.faultCode

/-- A fetch above 0xFFE takes `AddressFault`, code 3, and changes nothing else (R63, R121: the spec's decision D3). -/
def Obligations.FetchPastTopFaults : Prop :=
  ∀ s : State, s.run ≠ .faulted → 0xFFE < s.pc.toNat →
    ∃ t, step s = .next t ∧ FaultTaken s t .addressFault ∧ stepResult s t = .fault 3

/-- The step never stops the model: in every state it answers a next state (the note that ends part 1 of
93_implementation_defined.md). -/
def Obligations.EveryStepAnswersNext : Prop := ∀ s : State, ∃ t, step s = .next t

/-- The event `STEP(rnd)` is one step with the byte `rnd`, which does not outlive it, and returns the one result of R7 that
fits: `Ok`, `UnknownOpcode(w)`, `Waiting`, `Fault(c)` (the list is the spec's decision D24). -/
def Obligations.StepReportsItsOutcome : Prop :=
  ∀ (s : State) (b : Byte), ∃ t r,
    Machine.step { s with rndIn := some b } = .next t ∧
    s.event (.step b) = .next ({ t with rndIn := none }, .stepped r) ∧
    (r = .waiting ↔ t.run = .awaitingKey) ∧
    (∀ c, r = .fault c ↔ t.run = .faulted ∧ c = t.faultCode) ∧
    (∀ w, r = .unknownOpcode w ↔
      s.run ≠ .faulted ∧ s.pc.toNat ≤ 0xFFE ∧ w = s.fetchWord ∧ decode w = .error (.unknownOpcode w)) ∧
    (r = .ok ↔ t.run = .running ∧ ∃ i, decode s.fetchWord = .ok i)

/-- The table of R251 is complete: an instruction that takes a fault is one of the table's, with the cause the table gives,
and nothing else changes (R250, R251, R255). Codes and two of the faults are the spec's decisions D3, D4, D10. -/
def Obligations.FaultsAreTheTable : Prop :=
  ∀ (i : Instr) (s t : State), s.run ≠ .faulted → exec i s = .next t → t.run = .faulted →
    ((∃ nnn, i = .call nnn) ∧ s.sp.val = 16 ∧ FaultTaken s t .stackOverflow ∧ t.faultCode = 1) ∨
    (i = .ret ∧ s.sp.val = 0 ∧ FaultTaken s t .stackUnderflow ∧ t.faultCode = 2) ∨
    (((∃ x y n, i = .drw x y n ∧ n.val > 0 ∧ s.i.toNat + n.val - 1 > 0xFFF) ∨
      (∃ x, i = .bcd x ∧ s.i.toNat + 2 > 0xFFF) ∨
      (∃ x, (i = .stm x ∨ i = .ldm x) ∧ s.i.toNat + x.val > 0xFFF)) ∧
      FaultTaken s t .addressFault ∧ t.faultCode = 3) ∨
    ((∃ x, (i = .skp x ∨ i = .sknp x) ∧ (s.getV x).toNat > 0xF) ∧ FaultTaken s t .keyIndexFault ∧ t.faultCode = 4)

/-! ### Control transfer (41_control_flow.md) -/

/-- R141: `PC <- zext_16(nnn)`, for every `nnn`; nothing else changes but `RUN`, which is `Running`. -/
def Obligations.JpGoesToTarget : Prop :=
  ∀ (nnn : Imm12) (s : State),
    ∃ t, exec (.jp nnn) s = .next t ∧ t.pc.toNat = nnn.toNat ∧ t.run = .running ∧ Frame s t [] []

/-- R142, with a free entry: `STACK[SP] <- PC + 2`, `SP <- SP + 1`, `PC <- nnn`; the other entries stay. The stack's
representation is the spec's decision D9. -/
def Obligations.CallPushesReturn : Prop :=
  ∀ (nnn : Imm12) (s : State) (h : s.sp.val < 16),
    ∃ t, exec (.call nnn) s = .next t ∧ t.pc.toNat = nnn.toNat ∧ t.run = .running ∧ t.sp.val = s.sp.val + 1 ∧
      t.stack[s.sp.val] = s.pc + 2 ∧ (∀ (j : Nat) (_ : j < 16), j ≠ s.sp.val → t.stack[j] = s.stack[j]) ∧
      Frame s t [] [.stack]

/-- R140, with an entry in use: `SP <- SP - 1`, `PC <- STACK[SP]` as it is; every entry keeps its contents. The stack's
representation is the spec's decision D9. -/
def Obligations.RetPopsReturn : Prop :=
  ∀ (s : State) (_ : 0 < s.sp.val),
    ∃ t, exec .ret s = .next t ∧ t.pc = s.stack[s.sp.val - 1] ∧ t.run = .running ∧ t.sp.val = s.sp.val - 1 ∧
      (∀ (j : Nat) (_ : j < 16), t.stack[j] = s.stack[j]) ∧ Frame s t [] [.stack]

/-- A call with sixteen entries in use takes `StackOverflow` and a return with none `StackUnderflow`; nothing else changes
(R140, R142, R250; recording a fault is the spec's decision D10). -/
def Obligations.StackFaults : Prop :=
  (∀ (nnn : Imm12) (s : State), s.sp.val = 16 →
    ∃ t, exec (.call nnn) s = .next t ∧ FaultTaken s t .stackOverflow ∧ t.faultCode = 1) ∧
  (∀ s : State, s.sp.val = 0 → ∃ t, exec .ret s = .next t ∧ FaultTaken s t .stackUnderflow ∧ t.faultCode = 2)

/-- R148: a return straight after a call comes back to the word after the call, with the stack as deep as before and the
older entries untouched. -/
def Obligations.CallThenRetComesBack : Prop :=
  ∀ (nnn : Imm12) (s t : State), s.sp.val < 16 → exec (.call nnn) s = .next t →
    ∃ u, exec .ret t = .next u ∧ u.pc = s.pc + 2 ∧ u.sp = s.sp ∧
      (∀ (j : Nat) (_ : j < 16), j < s.sp.val → u.stack[j] = s.stack[j]) ∧ Frame s u [] [.stack]

/-- R143, R144: the skips on an immediate; exactly one of the two skips. -/
def Obligations.SkipsOnImmediate : Prop :=
  ∀ (x : Reg) (nn : Byte) (s : State),
    (∃ t, exec (.sei x nn) s = .next t ∧ t.pc = (if s.getV x = nn then s.pc + 4 else s.pc + 2) ∧ t.run = .running ∧
      Frame s t [] []) ∧
    (∃ t, exec (.snei x nn) s = .next t ∧ t.pc = (if s.getV x ≠ nn then s.pc + 4 else s.pc + 2) ∧ t.run = .running ∧
      Frame s t [] [])

/-- R145, R146: the skips on two registers; with `x = y` the first always skips and the second never. -/
def Obligations.SkipsOnRegisters : Prop :=
  ∀ (x y : Reg) (s : State),
    (∃ t, exec (.ser x y) s = .next t ∧ t.pc = (if s.getV x = s.getV y then s.pc + 4 else s.pc + 2) ∧ t.run = .running ∧
      Frame s t [] []) ∧
    (∃ t, exec (.sner x y) s = .next t ∧ t.pc = (if s.getV x ≠ s.getV y then s.pc + 4 else s.pc + 2) ∧ t.run = .running ∧
      Frame s t [] [])

/-- R147: `PC <- nnn + V0`, not reduced modulo 4096, VF not written. -/
def Obligations.JpvAddsV0 : Prop :=
  ∀ (nnn : Imm12) (s : State),
    ∃ t, exec (.jpv nnn) s = .next t ∧ t.pc.toNat = nnn.toNat + (s.getV 0).toNat ∧ t.run = .running ∧ Frame s t [] []

/-- R314: a jump to its own address changes no state of a running core, however often it is stepped. -/
def Obligations.SelfJumpIsFinal : Prop :=
  ∀ (s : State) (nnn : Imm12) (k : Nat), s.run = .running → s.pc.toNat ≤ 0xFFE → s.pc.toNat = nnn.toNat →
    s.fetchWord = encode (.jp nnn) → Sys2Proof.core.run k s = .next s

/-! ### ALU (42_alu.md) -/

/-- R160, R161, R162: load immediate, add immediate modulo 256, and copy; for every `x`, VF like any register. -/
def Obligations.LoadAddImmediateMove : Prop :=
  ∀ (x y : Reg) (nn : Byte) (s : State),
    (∃ t, exec (.ldi x nn) s = .next t ∧ t.getV x = nn ∧ t.pc = s.pc + 2 ∧ t.run = .running ∧ Frame s t [x] []) ∧
    (∃ t, exec (.addi x nn) s = .next t ∧ (t.getV x).toNat = ((s.getV x).toNat + nn.toNat) % 256 ∧ t.pc = s.pc + 2 ∧
      t.run = .running ∧ Frame s t [x] []) ∧
    (∃ t, exec (.mov x y) s = .next t ∧ t.getV x = s.getV y ∧ t.pc = s.pc + 2 ∧ t.run = .running ∧ Frame s t [x] [])

/-- R163, R164, R165: the logic operations, bit by bit; VF is not written unless it is `x`. -/
def Obligations.LogicLeavesTheFlag : Prop :=
  ∀ (x y : Reg) (s : State),
    (∃ t, exec (.or x y) s = .next t ∧
      (∀ k, (t.getV x).getLsbD k = ((s.getV x).getLsbD k || (s.getV y).getLsbD k)) ∧
      t.pc = s.pc + 2 ∧ t.run = .running ∧ Frame s t [x] []) ∧
    (∃ t, exec (.and x y) s = .next t ∧
      (∀ k, (t.getV x).getLsbD k = ((s.getV x).getLsbD k && (s.getV y).getLsbD k)) ∧
      t.pc = s.pc + 2 ∧ t.run = .running ∧ Frame s t [x] []) ∧
    (∃ t, exec (.xor x y) s = .next t ∧
      (∀ k, (t.getV x).getLsbD k = ((s.getV x).getLsbD k ^^ (s.getV y).getLsbD k)) ∧
      t.pc = s.pc + 2 ∧ t.run = .running ∧ Frame s t [x] [])

/-- R166: the sum modulo 256 in `Vx`, also when `x` is VF (then the carry is lost), and the carry in VF otherwise. The cases
with VF as an operand rest on the spec's decision D2 (log entry 8). -/
def Obligations.AddWritesSumAndCarry : Prop :=
  ∀ (x y : Reg) (s : State),
    ∃ t, exec (.add x y) s = .next t ∧
      (t.getV x).toNat = ((s.getV x).toNat + (s.getV y).toNat) % 256 ∧
      (x ≠ vF → t.getV vF = if (s.getV x).toNat + (s.getV y).toNat > 255 then 1 else 0) ∧
      t.pc = s.pc + 2 ∧ t.run = .running ∧ Frame s t [x, vF] []

/-- R167, every case it spells out; `f` is 1 when `Vx >= Vy` before, else 0. The three cases with VF as an operand rest on the
spec's decision D2. -/
def Obligations.SubWritesDifferenceAndNotBorrow : Prop :=
  ∀ (x y : Reg) (s : State) (f : Nat), f = (if (s.getV x).toNat ≥ (s.getV y).toNat then 1 else 0) →
    ∃ t, exec (.sub x y) s = .next t ∧
      (x ≠ vF → (t.getV vF).toNat = f) ∧
      (x ≠ vF → y ≠ vF → ((t.getV x).toNat : Int) = ((s.getV x).toNat - (s.getV y).toNat : Int) % 256) ∧
      (x ≠ vF → y = vF → ((t.getV x).toNat : Int) = ((s.getV x).toNat - f : Int) % 256) ∧
      (x = vF → y ≠ vF → ((t.getV vF).toNat : Int) = (f - (s.getV y).toNat : Int) % 256) ∧
      (x = vF → y = vF → t.getV vF = 0) ∧
      t.pc = s.pc + 2 ∧ t.run = .running ∧ Frame s t [x, vF] []

/-- R169, every case it spells out; `f` is 1 when `Vy >= Vx` before, else 0. The three cases with VF as an operand rest on the
spec's decision D2. -/
def Obligations.SubnWritesDifferenceAndNotBorrow : Prop :=
  ∀ (x y : Reg) (s : State) (f : Nat), f = (if (s.getV y).toNat ≥ (s.getV x).toNat then 1 else 0) →
    ∃ t, exec (.subn x y) s = .next t ∧
      (x ≠ vF → (t.getV vF).toNat = f) ∧
      (x ≠ vF → y ≠ vF → ((t.getV x).toNat : Int) = ((s.getV y).toNat - (s.getV x).toNat : Int) % 256) ∧
      (x ≠ vF → y = vF → ((t.getV x).toNat : Int) = (f - (s.getV x).toNat : Int) % 256) ∧
      (x = vF → y ≠ vF → ((t.getV vF).toNat : Int) = ((s.getV y).toNat - f : Int) % 256) ∧
      (x = vF → y = vF → t.getV vF = 0) ∧
      t.pc = s.pc + 2 ∧ t.run = .running ∧ Frame s t [x, vF] []

/-- R168, R170: the shifts by one, `y` ignored, the bit shifted out in VF; with `x` = VF the register ends as 0 (SHR), and as 2
or 0 (SHL), which rests on the spec's decision D2. -/
def Obligations.ShiftsMoveABitIntoVf : Prop :=
  ∀ (x y : Reg) (s : State),
    (∃ t, exec (.shr x y) s = .next t ∧
      (x ≠ vF → (t.getV x).toNat = (s.getV x).toNat / 2 ∧ (t.getV vF).toNat = (s.getV x).toNat % 2) ∧
      (x = vF → t.getV vF = 0) ∧ t.pc = s.pc + 2 ∧ t.run = .running ∧ Frame s t [x, vF] []) ∧
    (∃ t, exec (.shl x y) s = .next t ∧
      (x ≠ vF → (t.getV x).toNat = (s.getV x).toNat * 2 % 256 ∧ (t.getV vF).toNat = (s.getV x).toNat / 128) ∧
      (x = vF → t.getV vF = if (s.getV vF).toNat ≥ 0x80 then 2 else 0) ∧
      t.pc = s.pc + 2 ∧ t.run = .running ∧ Frame s t [x, vF] [])

/-- R171: `Vx` is the step's free byte masked by `nn`, whatever that byte is; no bit outside the mask is set; the byte is not
used again. The free byte is the spec's decision D8; the two fields that supply it are the model's (log entry 1). -/
def Obligations.RndMasksTheFreeByte : Prop :=
  ∀ (x : Reg) (nn : Byte) (s : State),
    ∃ t, exec (.rnd x nn) s = .next t ∧
      (∀ b, s.rndIn = some b → t.getV x = b &&& nn) ∧
      (s.rndIn = none → t.getV x = Config.rnd s.draws &&& nn) ∧
      t.getV x &&& ~~~nn = 0 ∧ t.rndIn = none ∧ t.draws = s.draws + 1 ∧
      t.pc = s.pc + 2 ∧ t.run = .running ∧ Frame s t [x] [.draws]

/-! ### Index and memory (43_index_memory.md, 20_memory.md) -/

/-- R190: `I <- zext_16(nnn)`. -/
def Obligations.LdaLoadsI : Prop :=
  ∀ (nnn : Imm12) (s : State),
    ∃ t, exec (.lda nnn) s = .next t ∧ t.i.toNat = nnn.toNat ∧ t.pc = s.pc + 2 ∧ t.run = .running ∧ Frame s t [] [.i]

/-- R191: `I` wraps modulo 4096 and VF tells whether it did, also when `x` is VF, whose old value is then the addend: the
spec's decision D2 (log entry 8). -/
def Obligations.AddaWrapsAndFlags : Prop :=
  ∀ (x : Reg) (s : State),
    ∃ t, exec (.adda x) s = .next t ∧
      t.i.toNat = (s.i.toNat + (s.getV x).toNat) % 4096 ∧
      t.getV vF = (if s.i.toNat + (s.getV x).toNat > 0xFFF then 1 else 0) ∧
      t.pc = s.pc + 2 ∧ t.run = .running ∧ Frame s t [vF] [.i]

/-- R192: the three digits at `I`, `I + 1`, `I + 2`, and every byte outside those three as before. The memory is in the
canonical form that every run keeps (`ReachableInvariantKept`). -/
def Obligations.BcdStoresDigits : Prop :=
  ∀ (x : Reg) (s : State), s.mem.wf → s.i.toNat + 2 ≤ 0xFFF →
    ∃ t, exec (.bcd x) s = .next t ∧
      (t.readMem s.i.toNat).toNat = (s.getV x).toNat / 100 ∧
      (t.readMem (s.i.toNat + 1)).toNat = (s.getV x).toNat / 10 % 10 ∧
      (t.readMem (s.i.toNat + 2)).toNat = (s.getV x).toNat % 10 ∧
      KeepsMemOutside s t s.i.toNat 3 ∧
      t.pc = s.pc + 2 ∧ t.run = .running ∧ Frame s t [] [.mem]

/-- R193: `V[k]` at `I + k` for `k` from 0 to `x`, and every byte outside those `x + 1` as before; `I` stays. The memory is in
the canonical form that every run keeps. -/
def Obligations.StmStoresRegisters : Prop :=
  ∀ (x : Reg) (s : State), s.mem.wf → s.i.toNat + x.val ≤ 0xFFF →
    ∃ t, exec (.stm x) s = .next t ∧
      (∀ k ≤ x, t.readMem (s.i.toNat + k.val) = s.getV k) ∧
      KeepsMemOutside s t s.i.toNat (x.val + 1) ∧
      t.pc = s.pc + 2 ∧ t.run = .running ∧ Frame s t [] [.mem]

/-- R194: `V[k]` from `I + k` for `k` from 0 to `x`; the registers above `x`, `I` and all of memory stay. -/
def Obligations.LdmLoadsRegisters : Prop :=
  ∀ (x : Reg) (s : State), s.i.toNat + x.val ≤ 0xFFF →
    ∃ t, exec (.ldm x) s = .next t ∧
      (∀ k ≤ x, t.getV k = s.readMem (s.i.toNat + k.val)) ∧ (∀ k, x < k → t.getV k = s.getV k) ∧
      t.pc = s.pc + 2 ∧ t.run = .running ∧ Frame s t ((List.finRange 16).filter (· ≤ x)) []

/-- The conditions of R195 under which the four memory instructions take `AddressFault`, changing nothing else (the spec's
decision D3). -/
def Obligations.DataRangePastTopFaults : Prop :=
  (∀ (x : Reg) (s : State), s.i.toNat ≥ 0xFFE → ∃ t, exec (.bcd x) s = .next t ∧ FaultTaken s t .addressFault) ∧
  (∀ (x : Reg) (s : State), s.i.toNat + x.val ≥ 0x1000 →
    (∃ t, exec (.stm x) s = .next t ∧ FaultTaken s t .addressFault) ∧
    (∃ t, exec (.ldm x) s = .next t ∧ FaultTaken s t .addressFault)) ∧
  (∀ (x y n : Reg) (s : State), n.val > 0 → s.i.toNat + n.val ≥ 0x1001 →
    ∃ t, exec (.drw x y n) s = .next t ∧ FaultTaken s t .addressFault)

/-- R74: a store into the next instruction is seen by the next fetch. -/
def Obligations.StoredCodeIsFetched : Prop :=
  ∀ (x : Reg) (s t : State) (i : Instr), s.mem.wf → 1 ≤ x → s.i.toNat = s.pc.toNat + 2 → s.i.toNat + x.val ≤ 0xFFF →
    exec (.stm x) s = .next t → decode (s.getV 0 ++ s.getV 1) = .ok i → step t = exec i t

/-- Equal contents are equal data: two canonical memories that read alike at every address are the same list
(the model's representation, log entry 5). -/
def Obligations.CanonicalMemoryIsItsContents : Prop :=
  ∀ m k : Memory, m.wf → k.wf → (∀ a, m.read a = k.read a) → m = k

/-! ### Display (44_display.md) -/

/-- R210: all 2048 pixels 0, `DIRTY` 1 whatever it was, VF not written. -/
def Obligations.ClsClearsAndMarksDirty : Prop :=
  ∀ s : State, ∃ t, exec .cls s = .next t ∧ (∀ r c, t.pixel r c = false) ∧ t.dirty = true ∧ t.pc = s.pc + 2 ∧
    t.run = .running ∧ Frame s t [] [.display, .dirty]

/-- R211, R212, R213: exactly the pixels that a set sprite bit covers, wrapping at the edges, are inverted; VF is 1 exactly when
one of them was set; `DIRTY` is 1; also for `n = 0`, and the coordinates are those before VF is written. Wrap and geometry
are the spec's decisions D5 and D6. -/
def Obligations.DrwXorsTheSprite : Prop :=
  ∀ (x y n : Reg) (s : State), (n.val = 0 ∨ s.i.toNat + n.val - 1 ≤ 0xFFF) →
    ∃ t, exec (.drw x y n) s = .next t ∧
      (∀ r c, SpriteCovers s x y n r c → t.pixel r c = !s.pixel r c) ∧
      (∀ r c, ¬ SpriteCovers s x y n r c → t.pixel r c = s.pixel r c) ∧
      ((∃ r c, SpriteCovers s x y n r c ∧ s.pixel r c = true) → t.getV vF = 1) ∧
      ((∀ r c, SpriteCovers s x y n r c → s.pixel r c = false) → t.getV vF = 0) ∧
      t.dirty = true ∧ t.pc = s.pc + 2 ∧ t.run = .running ∧ Frame s t [vF] [.display, .dirty]

/-- R214: the same sprite drawn twice at the same place restores every pixel, and the second draw's VF is 1 exactly when the
first draw set a pixel that was clear (the spec derives this from R211; wrap and geometry are its decisions D5 and D6). `x`
and `y` are not VF, which the first draw overwrites. -/
def Obligations.DrawTwiceRestoresDisplay : Prop :=
  ∀ (x y n : Reg) (s : State), x ≠ vF → y ≠ vF → (n.val = 0 ∨ s.i.toNat + n.val - 1 ≤ 0xFFF) →
    ∃ t u, exec (.drw x y n) s = .next t ∧ exec (.drw x y n) t = .next u ∧
      (∀ r c, u.pixel r c = s.pixel r c) ∧
      (u.getV vF = 1 ↔ ∃ r c, SpriteCovers s x y n r c ∧ s.pixel r c = false)

/-! ### Keys and timers (45_keys_timers.md) -/

/-- R230, R231 with a key index of at most 15: the skips on a key; exactly one of the two skips. -/
def Obligations.KeySkips : Prop :=
  ∀ (x k : Reg) (s : State), (s.getV x).toNat = k.val →
    (∃ t, exec (.skp x) s = .next t ∧ t.pc = (if s.pressed k then s.pc + 4 else s.pc + 2) ∧ t.run = .running ∧
      Frame s t [] []) ∧
    (∃ t, exec (.sknp x) s = .next t ∧ t.pc = (if s.pressed k then s.pc + 2 else s.pc + 4) ∧ t.run = .running ∧
      Frame s t [] [])

/-- R230, R231 with `Vx` above 15: `KeyIndexFault`, code 4, nothing else changed (the spec's decision D4). -/
def Obligations.KeyIndexAboveFifteenFaults : Prop :=
  ∀ (x : Reg) (s : State), (s.getV x).toNat > 0xF →
    (∃ t, exec (.skp x) s = .next t ∧ FaultTaken s t .keyIndexFault ∧ t.faultCode = 4) ∧
    (∃ t, exec (.sknp x) s = .next t ∧ FaultTaken s t .keyIndexFault ∧ t.faultCode = 4)

/-- R232 with a key pressed: the least pressed index goes to `Vx` and `RUN` is `Running`. Level and lowest index are the
spec's decision D7. -/
def Obligations.WkeyTakesLowestKey : Prop :=
  ∀ (x k : Reg) (s : State), s.pressed k = true → (∀ j < k, s.pressed j = false) →
    ∃ t, exec (.wkey x) s = .next t ∧ (t.getV x).toNat = k.val ∧ t.pc = s.pc + 2 ∧ t.run = .running ∧ Frame s t [x] []

/-- R232 with no key pressed: `RUN` is `AwaitingKey`, `PC`, `Vx` and all else stay, and the step's result is `Waiting` (the
spec's decision D20). -/
def Obligations.WkeyWaitsForAKey : Prop :=
  ∀ (x : Reg) (s : State), (∀ k, s.pressed k = false) →
    ∃ t, exec (.wkey x) s = .next t ∧ t.pc = s.pc ∧ t.run = .awaitingKey ∧ Frame s t [] [] ∧ stepResult s t = .waiting

/-- R233, R234 and the assignment of R235: `Vx <- DT`, `DT <- Vx`, `ST <- Vx`. -/
def Obligations.TimerAccess : Prop :=
  ∀ (x : Reg) (s : State),
    (∃ t, exec (.lddt x) s = .next t ∧ t.getV x = s.dt ∧ t.pc = s.pc + 2 ∧ t.run = .running ∧ Frame s t [x] []) ∧
    (∃ t, exec (.stdt x) s = .next t ∧ t.dt = s.getV x ∧ t.pc = s.pc + 2 ∧ t.run = .running ∧ Frame s t [] [.dt]) ∧
    (∃ t, exec (.stst x) s = .next t ∧ t.st = s.getV x ∧ t.pc = s.pc + 2 ∧ t.run = .running ∧ Frame s t [] [.st])

/-! ### The driver's events (60_exceptions.md, 70_reset_and_hazards.md) -/

/-- R260, R261: `TICK` takes each timer down by 1, never below 0, in every run state, changes nothing else, and returns the
tone edge exactly when `ST` goes from 1 to 0. Acceptance in every run state and the form of the edge are the spec's
decisions D16 and D12. -/
def Obligations.TickCountsDown : Prop :=
  ∀ s : State, ∃ t b, s.event .tick = .next (t, .tone b) ∧
    t.dt.toNat = s.dt.toNat - 1 ∧ t.st.toNat = s.st.toNat - 1 ∧ (b = true ↔ s.st.toNat = 1) ∧
    t.pc = s.pc ∧ t.run = s.run ∧ Frame s t [] [.dt, .st]

/-- R261: from any state, of the ticks that follow with no write to `ST` between them, exactly the one whose number is `ST`
returns the tone edge. -/
def Obligations.ToneOnTheTickThatReachesZero : Prop :=
  ∀ (s : State) (k : Nat), (tickN k s).tick.2 = true ↔ k + 1 = s.st.toNat

/-- R264, R266: `KEYWRITE(k, b)` writes that slot alone, `DIRTYCLEAR` clears `DIRTY` alone, in every run state (the spec's
decision D16). -/
def Obligations.KeyWriteAndDirtyClear : Prop :=
  ∀ (s : State) (k : Reg) (b : Bool),
    (∃ t, s.event (.keyWrite k b) = .next (t, .none) ∧ (∀ j, t.pressed j = if j = k then b else s.pressed j) ∧
      t = { s with key := t.key }) ∧
    s.event .dirtyClear = .next ({ s with dirty := false }, .none)

/-- R300, R301: `RESET`, from any state, leaves every element of the state at its reset value; memory is compared with the
parameter `FONT` by name and rests on no value of it. The latch, `RUN` and `FAULT` at reset are the spec's decisions D21, D20
and D10; the model's own count of draws goes on (log entry 1). -/
def Obligations.ResetSetsEveryElement : Prop :=
  ∀ s : State, ∃ t, s.event .reset = .next (t, .none) ∧
    (∀ a < 80, t.readMem a = Config.font.getD a 0) ∧ (∀ a, 80 ≤ a → a ≤ 0xFFF → t.readMem a = 0) ∧
    (∀ r, t.getV r = 0) ∧ t.i = 0 ∧ t.pc = 0x200 ∧ t.sp = 0 ∧ (∀ (j : Nat) (_ : j < 16), t.stack[j] = 0) ∧
    t.dt = 0 ∧ t.st = 0 ∧ (∀ r c, t.pixel r c = false) ∧ t.dirty = true ∧ (∀ k, t.pressed k = false) ∧
    t.run = .running ∧ t.fault = none ∧ t = { State.reset with draws := t.draws }

/-- R302: an image of at most 3584 bytes is copied to 0x200 after a reset; a longer one is rejected and changes nothing. The
order of check and reset is the spec's decision D17. -/
def Obligations.LoadPlacesOrRejects : Prop :=
  ∀ (s : State) (bytes : List Byte),
    (bytes.length ≤ 3584 → ∃ t, s.event (.load bytes) = .next (t, .loaded true) ∧
      (∀ (k : Nat) (_ : k < bytes.length), t.readMem (0x200 + k) = bytes[k]) ∧
      (∀ a, (a < 0x200 ∨ 0x200 + bytes.length ≤ a) → t.readMem a = State.reset.readMem a) ∧
      t = { State.reset with mem := t.mem, draws := s.draws }) ∧
    (3584 < bytes.length → s.event (.load bytes) = .next (s, .loaded false))

/-- R128: the first step after a load runs the image's first word. -/
def Obligations.FirstStepRunsTheImage : Prop :=
  ∀ (s t : State) (b0 b1 : Byte) (rest : List Byte) (i : Instr) (r : EventResult), rest.length + 2 ≤ 3584 →
    s.event (.load (b0 :: b1 :: rest)) = .next (t, r) → decode (b0 ++ b1) = .ok i → step t = exec i t

/-! ### The whole machine -/

/-- The invariant of the reachable states holds after reset. -/
def Obligations.ReachableInvariantAtReset : Prop := Inv State.reset

/-- Every step keeps the invariant: canonical memory, `I` at most 0xFFF (R22), `PC` at most 0x10FE and return addresses at most
0x1000 (R24), `FAULT` nonzero exactly when faulted (R33), and a waiting core at an Fx0A (R32). -/
def Obligations.ReachableInvariantKept : Prop :=
  ∀ s t : State, Inv s → step s = .next t → Inv t

/-- Every event of the driver keeps the invariant, and `RESET` and a successful `LOAD` establish it from any state at all
(R6, R300, R302). -/
def Obligations.InvariantKeptByEvents : Prop :=
  (∀ (s t : State) (e : Event) (r : EventResult), Inv s → s.event e = .next (t, r) → Inv t) ∧
  (∀ (s t : State) (r : EventResult), s.event .reset = .next (t, r) → Inv t) ∧
  (∀ (s t : State) (bytes : List Byte), s.event (.load bytes) = .next (t, .loaded true) → Inv t)

/-- A fault, once recorded, stays what it is, and nothing but the timers, the keys and the dirty flag moves, until a reset or a
successful load (R33, R127, R256; the events accepted meanwhile are the spec's decision D16). -/
def Obligations.FaultStaysUntilReset : Prop :=
  ∀ (s t : State) (e : Event) (r : EventResult), s.run = .faulted → s.event e = .next (t, r) →
    e ≠ .reset → (∀ bytes, e = .load bytes → 3584 < bytes.length) →
    t = { s with dt := t.dt, st := t.st, key := t.key, dirty := t.dirty, rndIn := t.rndIn }

/-- Who writes what, over all instructions: `I` only LDA and ADDA (R22), the stack only CALL and RET (R25), `DT` only STDT and
`ST` only STST (R126), memory only BCD and STM (R61), the display and `DIRTY` only CLS and DRW (R30, R214), and the key latch
none (R31). -/
def Obligations.WritersOfEachPart : Prop :=
  ∀ (i : Instr) (s t : State), exec i s = .next t →
    (t.i ≠ s.i → (∃ a, i = .lda a) ∨ ∃ x, i = .adda x) ∧
    (t.sp ≠ s.sp ∨ t.stack ≠ s.stack → (∃ a, i = .call a) ∨ i = .ret) ∧
    (t.dt ≠ s.dt → ∃ x, i = .stdt x) ∧ (t.st ≠ s.st → ∃ x, i = .stst x) ∧
    (t.mem ≠ s.mem → (∃ x, i = .bcd x) ∨ ∃ x, i = .stm x) ∧
    (t.fb ≠ s.fb ∨ t.dirty ≠ s.dirty → i = .cls ∨ ∃ x y n, i = .drw x y n) ∧ t.key = s.key

/-- R21: VF changes only by an instruction of its table, or by one that names VF as its destination. -/
def Obligations.WritersOfVf : Prop :=
  ∀ (i : Instr) (s t : State), exec i s = .next t → t.getV vF ≠ s.getV vF →
    (∃ x y, i = .add x y ∨ i = .sub x y ∨ i = .shr x y ∨ i = .subn x y ∨ i = .shl x y) ∨
    (∃ x, i = .adda x) ∨ (∃ x y n, i = .drw x y n) ∨
    (∃ nn, i = .ldi vF nn ∨ i = .addi vF nn ∨ i = .rnd vF nn) ∨
    (∃ y, i = .mov vF y ∨ i = .or vF y ∨ i = .and vF y ∨ i = .xor vF y) ∨
    i = .lddt vF ∨ i = .wkey vF ∨ i = .ldm vF

/-- R37: no step lets `ST` or `DIRTY` be read. Two states that differ only in those two step to states that differ only in
them. -/
def Obligations.SoundTimerAndDirtyAreUnread : Prop :=
  ∀ s s' t : State, hideOutputs s = hideOutputs s' → step s = .next t →
    ∃ t', step s' = .next t' ∧ hideOutputs t = hideOutputs t'
end

