-- ==== Sys2Proof/Laws/Decode.lean ====
section
/-! SUPPORT. The fields of an encoded word, a word as its fields, and the bytes of a word, all through the numbers they are. -/

namespace Sys2Proof

/-- Every operand of every term of `Instr` is in range: the types see to it. -/
theorem WellFormed.instrOk_all (i : Instr) : WellFormed.instrOk i = true := by
  cases i <;> simp [WellFormed.instrOk, WellFormed.regOk, WellFormed.rowsOk, WellFormed.immOk, WellFormed.addrOk] <;> omega

/-- Writing one bit vector after another multiplies and adds. -/
theorem toNat_append_add {m k : Nat} (a : BitVec m) (b : BitVec k) : (a ++ b).toNat = a.toNat * 2 ^ k + b.toNat := by
  rw [BitVec.toNat_append, ← Nat.shiftLeft_add_eq_or_of_lt b.isLt, Nat.shiftLeft_eq]

theorem toNat_encNNN (o : BitVec 4) (a : Imm12) : (encNNN o a).toNat = o.toNat * 4096 + a.toNat :=
  toNat_append_add o a

theorem toNat_encXNN (o : BitVec 4) (x : Reg) (b : Byte) :
    (encXNN o x b).toNat = o.toNat * 4096 + x.val * 256 + b.toNat := by
  have h1 := toNat_append_add o (BitVec.ofFin x : BitVec 4)
  have h2 := toNat_append_add (o ++ (BitVec.ofFin x : BitVec 4)) b
  have hx : (BitVec.ofFin x : BitVec 4).toNat = x.val := rfl
  exact h2.trans (by rw [h1, hx]; omega)

theorem toNat_encXYN (o : BitVec 4) (x y n : Reg) :
    (encXYN o x y n).toNat = o.toNat * 4096 + x.val * 256 + y.val * 16 + n.val := by
  have h1 := toNat_append_add o (BitVec.ofFin x : BitVec 4)
  have h2 := toNat_append_add (o ++ (BitVec.ofFin x : BitVec 4)) (BitVec.ofFin y : BitVec 4)
  have h3 := toNat_append_add (o ++ (BitVec.ofFin x : BitVec 4) ++ (BitVec.ofFin y : BitVec 4)) (BitVec.ofFin n : BitVec 4)
  have hx : (BitVec.ofFin x : BitVec 4).toNat = x.val := rfl
  have hy : (BitVec.ofFin y : BitVec 4).toNat = y.val := rfl
  have hn : (BitVec.ofFin n : BitVec 4).toNat = n.val := rfl
  exact h3.trans (by rw [h2, h1, hx, hy, hn]; omega)

theorem toNat_op (w : Word) : (Field.op w).toNat = w.toNat / 4096 := by
  have := w.isLt
  simp only [Field.op, BitVec.extractLsb'_toNat, Nat.shiftRight_eq_div_pow]; omega

theorem val_x (w : Word) : (Field.x w).val = w.toNat / 256 % 16 := by simp [Field.x, Nat.shiftRight_eq_div_pow]

theorem val_y (w : Word) : (Field.y w).val = w.toNat / 16 % 16 := by simp [Field.y, Nat.shiftRight_eq_div_pow]

theorem val_n (w : Word) : (Field.n w).val = w.toNat % 16 := by simp [Field.n]

theorem toNat_nn (w : Word) : (Field.nn w).toNat = w.toNat % 256 := by simp [Field.nn]

theorem toNat_nnn (w : Word) : (Field.nnn w).toNat = w.toNat % 4096 := by simp [Field.nnn]

section Fields
variable (o : BitVec 4) (x y n : Reg) (b : Byte) (a : Imm12)

@[simp] theorem op_encNNN : Field.op (encNNN o a) = o := by
  apply BitVec.eq_of_toNat_eq; rw [toNat_op, toNat_encNNN]; omega
@[simp] theorem nnn_encNNN : Field.nnn (encNNN o a) = a := by
  apply BitVec.eq_of_toNat_eq; rw [toNat_nnn, toNat_encNNN]; omega
@[simp] theorem op_encXNN : Field.op (encXNN o x b) = o := by
  apply BitVec.eq_of_toNat_eq; rw [toNat_op, toNat_encXNN]; omega
@[simp] theorem x_encXNN : Field.x (encXNN o x b) = x := by
  apply Fin.ext; rw [val_x, toNat_encXNN]; omega
@[simp] theorem nn_encXNN : Field.nn (encXNN o x b) = b := by
  apply BitVec.eq_of_toNat_eq; rw [toNat_nn, toNat_encXNN]; omega
@[simp] theorem op_encXYN : Field.op (encXYN o x y n) = o := by
  apply BitVec.eq_of_toNat_eq; rw [toNat_op, toNat_encXYN]; omega
@[simp] theorem x_encXYN : Field.x (encXYN o x y n) = x := by
  apply Fin.ext; rw [val_x, toNat_encXYN]; omega
@[simp] theorem y_encXYN : Field.y (encXYN o x y n) = y := by
  apply Fin.ext; rw [val_y, toNat_encXYN]; omega
@[simp] theorem n_encXYN : Field.n (encXYN o x y n) = n := by
  apply Fin.ext; rw [val_n, toNat_encXYN]; omega

end Fields

/-- A word is its family and `nnn`. -/
theorem word_eq_encNNN (w : Word) : encNNN (Field.op w) (Field.nnn w) = w := by
  apply BitVec.eq_of_toNat_eq; rw [toNat_encNNN, toNat_op, toNat_nnn]; omega

/-- A word is its family, `x` and `nn`. -/
theorem word_eq_encXNN (w : Word) : encXNN (Field.op w) (Field.x w) (Field.nn w) = w := by
  apply BitVec.eq_of_toNat_eq; rw [toNat_encXNN, toNat_op, val_x, toNat_nn]; omega

/-- A word is its family, `x`, `y` and `n`. -/
theorem word_eq_encXYN (w : Word) : encXYN (Field.op w) (Field.x w) (Field.y w) (Field.n w) = w := by
  apply BitVec.eq_of_toNat_eq; rw [toNat_encXYN, toNat_op, val_x, val_y, val_n]; omega

theorem encNNN_of {w : Word} {o : BitVec 4} (ho : Field.op w = o) : encNNN o (Field.nnn w) = w := by
  subst ho; exact word_eq_encNNN w

theorem encXNN_of {w : Word} {o : BitVec 4} {b : Byte} (ho : Field.op w = o) (hb : Field.nn w = b) :
    encXNN o (Field.x w) b = w := by
  subst ho hb; exact word_eq_encXNN w

theorem encXYN_of {w : Word} {o : BitVec 4} {n : Reg} (ho : Field.op w = o) (hn : Field.n w = n) :
    encXYN o (Field.x w) (Field.y w) n = w := by
  subst ho hn; exact word_eq_encXYN w

/-- A family is one of the sixteen. -/
theorem family_cases (o : BitVec 4) :
    o = 0x0#4 ∨ o = 0x1#4 ∨ o = 0x2#4 ∨ o = 0x3#4 ∨ o = 0x4#4 ∨ o = 0x5#4 ∨ o = 0x6#4 ∨ o = 0x7#4 ∨
    o = 0x8#4 ∨ o = 0x9#4 ∨ o = 0xA#4 ∨ o = 0xB#4 ∨ o = 0xC#4 ∨ o = 0xD#4 ∨ o = 0xE#4 ∨ o = 0xF#4 := by
  revert o; decide

/-- The bytes of a word make the word (R65). -/
@[simp] theorem wordOfBytes_halves (w : Word) : wordOfBytes (w.extractLsb' 8 8) (w.extractLsb' 0 8) = w := by
  apply BitVec.eq_of_toNat_eq
  rw [wordOfBytes, toNat_append_add]
  simp only [BitVec.extractLsb'_toNat, Nat.shiftRight_eq_div_pow]
  omega

theorem toNat_wordOfBytes (hi lo : Byte) : (wordOfBytes hi lo).toNat = hi.toNat * 256 + lo.toNat := toNat_append_add hi lo

/-- Decoding answers an instruction of the tree, or the unknown word. -/
theorem decode_ok_iff (w : Word) (i : Instr) : decode w = .ok i ↔ decodeTree w = some i := by
  unfold decode; cases decodeTree w <;> simp

theorem decode_error_iff (w : Word) (e : DecodeError) :
    decode w = .error e ↔ decodeTree w = none ∧ e = .unknownOpcode w := by
  unfold decode; cases decodeTree w <;> simp [eq_comm]

/-! ### The decision tree, one lemma a family (R93) -/

section Families
variable {w : Word}

theorem decodeTree_family0 (h : Field.op w = 0x0#4) : decodeTree w = decode0 w := by
  simp [decodeTree, h]
theorem decodeTree_family1 (h : Field.op w = 0x1#4) : decodeTree w = some (.jp (Field.nnn w)) := by
  simp [decodeTree, h]
theorem decodeTree_family2 (h : Field.op w = 0x2#4) : decodeTree w = some (.call (Field.nnn w)) := by
  simp [decodeTree, h]
theorem decodeTree_family3 (h : Field.op w = 0x3#4) : decodeTree w = some (.sei (Field.x w) (Field.nn w)) := by
  simp [decodeTree, h]
theorem decodeTree_family4 (h : Field.op w = 0x4#4) : decodeTree w = some (.snei (Field.x w) (Field.nn w)) := by
  simp [decodeTree, h]
theorem decodeTree_family5 (h : Field.op w = 0x5#4) : decodeTree w = if Field.n w = 0 then some (.ser (Field.x w) (Field.y w)) else none := by
  simp [decodeTree, h]
theorem decodeTree_family6 (h : Field.op w = 0x6#4) : decodeTree w = some (.ldi (Field.x w) (Field.nn w)) := by
  simp [decodeTree, h]
theorem decodeTree_family7 (h : Field.op w = 0x7#4) : decodeTree w = some (.addi (Field.x w) (Field.nn w)) := by
  simp [decodeTree, h]
theorem decodeTree_family8 (h : Field.op w = 0x8#4) : decodeTree w = decode8 w := by
  simp [decodeTree, h]
theorem decodeTree_family9 (h : Field.op w = 0x9#4) : decodeTree w = if Field.n w = 0 then some (.sner (Field.x w) (Field.y w)) else none := by
  simp [decodeTree, h]
theorem decodeTree_familyA (h : Field.op w = 0xA#4) : decodeTree w = some (.lda (Field.nnn w)) := by
  simp [decodeTree, h]
theorem decodeTree_familyB (h : Field.op w = 0xB#4) : decodeTree w = some (.jpv (Field.nnn w)) := by
  simp [decodeTree, h]
theorem decodeTree_familyC (h : Field.op w = 0xC#4) : decodeTree w = some (.rnd (Field.x w) (Field.nn w)) := by
  simp [decodeTree, h]
theorem decodeTree_familyD (h : Field.op w = 0xD#4) : decodeTree w = some (.drw (Field.x w) (Field.y w) (Field.n w)) := by
  simp [decodeTree, h]
theorem decodeTree_familyE (h : Field.op w = 0xE#4) : decodeTree w = decodeE w := by
  simp [decodeTree, h]
theorem decodeTree_familyF (h : Field.op w = 0xF#4) : decodeTree w = decodeF w := by
  simp [decodeTree, h]

/-- The two words of family 0x0. -/
theorem decode0_eq_some {i : Instr} (h : decode0 w = some i) :
    (w = 0x00E0#16 ∧ i = .cls) ∨
    (w = 0x00EE#16 ∧ i = .ret) := by
  unfold decode0 at h
  split_ifs at h with h0 h1
  · exact .inl ⟨h0, (Option.some.inj h).symm⟩
  · exact .inr ⟨h1, (Option.some.inj h).symm⟩

/-- The nine instructions of family 0x8, chosen by `n`. -/
theorem decode8_eq_some {i : Instr} (h : decode8 w = some i) :
    (Field.n w = 0x0 ∧ i = .mov (Field.x w) (Field.y w)) ∨
    (Field.n w = 0x1 ∧ i = .or (Field.x w) (Field.y w)) ∨
    (Field.n w = 0x2 ∧ i = .and (Field.x w) (Field.y w)) ∨
    (Field.n w = 0x3 ∧ i = .xor (Field.x w) (Field.y w)) ∨
    (Field.n w = 0x4 ∧ i = .add (Field.x w) (Field.y w)) ∨
    (Field.n w = 0x5 ∧ i = .sub (Field.x w) (Field.y w)) ∨
    (Field.n w = 0x6 ∧ i = .shr (Field.x w) (Field.y w)) ∨
    (Field.n w = 0x7 ∧ i = .subn (Field.x w) (Field.y w)) ∨
    (Field.n w = 0xE ∧ i = .shl (Field.x w) (Field.y w)) := by
  unfold decode8 at h
  simp only at h
  split_ifs at h with h0 h1 h2 h3 h4 h5 h6 h7 h8
  · exact .inl ⟨h0, (Option.some.inj h).symm⟩
  · exact .inr (.inl ⟨h1, (Option.some.inj h).symm⟩)
  · exact .inr (.inr (.inl ⟨h2, (Option.some.inj h).symm⟩))
  · exact .inr (.inr (.inr (.inl ⟨h3, (Option.some.inj h).symm⟩)))
  · exact .inr (.inr (.inr (.inr (.inl ⟨h4, (Option.some.inj h).symm⟩))))
  · exact .inr (.inr (.inr (.inr (.inr (.inl ⟨h5, (Option.some.inj h).symm⟩)))))
  · exact .inr (.inr (.inr (.inr (.inr (.inr (.inl ⟨h6, (Option.some.inj h).symm⟩))))))
  · exact .inr (.inr (.inr (.inr (.inr (.inr (.inr (.inl ⟨h7, (Option.some.inj h).symm⟩)))))))
  · exact .inr (.inr (.inr (.inr (.inr (.inr (.inr (.inr ⟨h8, (Option.some.inj h).symm⟩)))))))

/-- The two instructions of family 0xE, chosen by `nn`. -/
theorem decodeE_eq_some {i : Instr} (h : decodeE w = some i) :
    (Field.nn w = 0x9E#8 ∧ i = .skp (Field.x w)) ∨
    (Field.nn w = 0xA1#8 ∧ i = .sknp (Field.x w)) := by
  unfold decodeE at h
  split_ifs at h with h0 h1
  · exact .inl ⟨h0, (Option.some.inj h).symm⟩
  · exact .inr ⟨h1, (Option.some.inj h).symm⟩

/-- The eight instructions of family 0xF, chosen by `nn`. -/
theorem decodeF_eq_some {i : Instr} (h : decodeF w = some i) :
    (Field.nn w = 0x07#8 ∧ i = .lddt (Field.x w)) ∨
    (Field.nn w = 0x0A#8 ∧ i = .wkey (Field.x w)) ∨
    (Field.nn w = 0x15#8 ∧ i = .stdt (Field.x w)) ∨
    (Field.nn w = 0x18#8 ∧ i = .stst (Field.x w)) ∨
    (Field.nn w = 0x1E#8 ∧ i = .adda (Field.x w)) ∨
    (Field.nn w = 0x33#8 ∧ i = .bcd (Field.x w)) ∨
    (Field.nn w = 0x55#8 ∧ i = .stm (Field.x w)) ∨
    (Field.nn w = 0x65#8 ∧ i = .ldm (Field.x w)) := by
  unfold decodeF at h
  simp only at h
  split_ifs at h with h0 h1 h2 h3 h4 h5 h6 h7
  · exact .inl ⟨h0, (Option.some.inj h).symm⟩
  · exact .inr (.inl ⟨h1, (Option.some.inj h).symm⟩)
  · exact .inr (.inr (.inl ⟨h2, (Option.some.inj h).symm⟩))
  · exact .inr (.inr (.inr (.inl ⟨h3, (Option.some.inj h).symm⟩)))
  · exact .inr (.inr (.inr (.inr (.inl ⟨h4, (Option.some.inj h).symm⟩))))
  · exact .inr (.inr (.inr (.inr (.inr (.inl ⟨h5, (Option.some.inj h).symm⟩)))))
  · exact .inr (.inr (.inr (.inr (.inr (.inr (.inl ⟨h6, (Option.some.inj h).symm⟩))))))
  · exact .inr (.inr (.inr (.inr (.inr (.inr (.inr ⟨h7, (Option.some.inj h).symm⟩))))))

end Families

end Sys2Proof
end

