-- ==== Sys2Proof/Laws/Display.lean ====
section
/-! SUPPORT. The display: one pixel after a flip, after a clear, after plotting, after a sprite row and after a sprite. -/

namespace Sys2Proof.Machine

/-- A flip changes its own pixel and no other. -/
@[simp] theorem Display.pixel_flip (d : Display) (r q : Fin 32) (c e : Fin 64) :
    (d.flip r c).pixel q e = if q = r ∧ e = c then !d.pixel q e else d.pixel q e := by
  by_cases hr : q = r
  · subst hr
    by_cases hc : e = c
    · subst hc; simp [Display.pixel, Display.flip]
    · simp [Display.pixel, Display.flip, hc, Fin.val_ne_of_ne (Ne.symm hc)]
  · simp [Display.pixel, Display.flip, hr, Fin.val_ne_of_ne (Ne.symm hr)]

@[simp] theorem Display.pixel_clear (q : Fin 32) (e : Fin 64) : Display.clear.pixel q e = false := by
  simp [Display.pixel, Display.clear]

/-- Two displays with the same pixels are equal. -/
theorem Display.ext_pixel (d e : Display) (h : ∀ r c, d.pixel r c = e.pixel r c) : d = e := by
  apply Vector.ext
  intro r hr
  apply Vector.ext
  intro c hc
  exact h ⟨r, hr⟩ ⟨c, hc⟩

@[simp] theorem Drawing.pixel_plot (d : Drawing) (r q : Fin 32) (c e : Fin 64) :
    (d.plot r c).fb.pixel q e = if q = r ∧ e = c then !d.fb.pixel q e else d.fb.pixel q e :=
  Display.pixel_flip d.fb r q c e

@[simp] theorem Drawing.hit_plot (d : Drawing) (r : Fin 32) (c : Fin 64) : (d.plot r c).hit = (d.hit || d.fb.pixel r c) := rfl

@[simp] theorem Drawing.rows_nil (d : Drawing) (px py : Byte) (k : Nat) : d.rows px py k [] = d := rfl

@[simp] theorem Drawing.rows_cons (d : Drawing) (px py : Byte) (k : Nat) (b : Byte) (bs : List Byte) :
    d.rows px py k (b :: bs) = (d.row px (spriteRow py k) b).rows px py (k + 1) bs := rfl

theorem val_spriteRow (py : Byte) (k : Nat) : (spriteRow py k).val = (py.toNat + k) % 32 := rfl

theorem val_spriteCol (px : Byte) (j : Nat) : (spriteCol px j).val = (px.toNat + j) % 64 := rfl

/-- The eight columns of one sprite row are eight different columns of the display. -/
theorem spriteCol_inj {px : Byte} {j k : Nat} (hj : j < 8) (hk : k < 8) (h : spriteCol px j = spriteCol px k) : j = k := by
  have := congrArg Fin.val h
  rw [val_spriteCol, val_spriteCol] at this
  omega

/-- The at most fifteen rows of a sprite are different rows of the display. -/
theorem spriteRow_inj {py : Byte} {j k : Nat} (hj : j < 32) (hk : k < 32) (h : spriteRow py j = spriteRow py k) : j = k := by
  have := congrArg Fin.val h
  rw [val_spriteRow, val_spriteRow] at this
  omega

/-- The columns a sprite row has drawn after `m` of its bits. -/
def RowCovers (px : Byte) (b : Byte) (m : Nat) (c : Fin 64) : Prop :=
  ∃ j < m, c = spriteCol px j ∧ b.getLsbD (7 - j) = true

/-- The pixels a sprite covers whose rows from `k` on are `bs`. -/
def RowsCover (px py : Byte) (k : Nat) (bs : List Byte) (r : Fin 32) (c : Fin 64) : Prop :=
  ∃ (m : Nat) (h : m < bs.length), r = spriteRow py (k + m) ∧ RowCovers px bs[m] 8 c

theorem rowCovers_succ (px b : Byte) (m : Nat) (c : Fin 64) :
    RowCovers px b (m + 1) c ↔ RowCovers px b m c ∨ (c = spriteCol px m ∧ b.getLsbD (7 - m) = true) := by
  constructor
  · rintro ⟨j, hj, h⟩
    rcases Nat.lt_succ_iff_lt_or_eq.1 hj with hj | rfl
    · exact .inl ⟨j, hj, h⟩
    · exact .inr h
  · rintro (⟨j, hj, h⟩ | h)
    · exact ⟨j, by omega, h⟩
    · exact ⟨m, by omega, h⟩

theorem rowsCover_cons (px py : Byte) (k : Nat) (b : Byte) (bs : List Byte) (r : Fin 32) (c : Fin 64) :
    RowsCover px py k (b :: bs) r c ↔
      (r = spriteRow py k ∧ RowCovers px b 8 c) ∨ RowsCover px py (k + 1) bs r c := by
  constructor
  · rintro ⟨m, hm, h1, h2⟩
    cases m with
    | zero => exact .inl ⟨h1, h2⟩
    | succ m => exact .inr ⟨m, by simpa using hm, by rw [h1]; congr 1; omega, by simpa using h2⟩
  · rintro (⟨h1, h2⟩ | ⟨m, hm, h1, h2⟩)
    · exact ⟨0, by simp, h1, h2⟩
    · exact ⟨m + 1, by simpa using hm, by rw [h1]; congr 1; omega, by simpa using h2⟩

open Classical in
/-- A sprite row inverts exactly the pixels of its set bits, and adds a hit exactly when one of them was set (R211). -/
theorem Drawing.row_spec (d : Drawing) (px : Byte) (r : Fin 32) (b : Byte) :
    (∀ q c, (d.row px r b).fb.pixel q c =
      if q = r ∧ RowCovers px b 8 c then !d.fb.pixel q c else d.fb.pixel q c) ∧
    ((d.row px r b).hit = true ↔ d.hit = true ∨ ∃ c, RowCovers px b 8 c ∧ d.fb.pixel r c = true) := by
  suffices h : ∀ m ≤ 8, ∀ e : Drawing,
      e = (List.range m).foldl (fun d j => if b.getLsbD (7 - j) then d.plot r (spriteCol px j) else d) d →
      (∀ q c, e.fb.pixel q c = if q = r ∧ RowCovers px b m c then !d.fb.pixel q c else d.fb.pixel q c) ∧
      (e.hit = true ↔ d.hit = true ∨ ∃ c, RowCovers px b m c ∧ d.fb.pixel r c = true) from
    h 8 (le_refl _) _ rfl
  intro m
  induction m with
  | zero => rintro - e rfl; simp [RowCovers]
  | succ m ih =>
    rintro hm e rfl
    obtain ⟨ih1, ih2⟩ := ih (by omega) _ rfl
    have hnew : ¬ RowCovers px b m (spriteCol px m) := by
      rintro ⟨j, hj, h, -⟩
      have := spriteCol_inj (px := px) (j := m) (k := j) (by omega) (by omega) h
      omega
    rw [List.range_succ, List.foldl_append, List.foldl_cons, List.foldl_nil]
    simp only [rowCovers_succ]
    by_cases hb : b.getLsbD (7 - m) = true
    · simp only [hb, if_true, and_true]
      constructor
      · intro q c
        rw [Drawing.pixel_plot, ih1]
        by_cases hc : c = spriteCol px m
        · subst hc; by_cases hq : q = r <;> simp [hq, hnew]
        · simp [hc]
      · rw [Drawing.hit_plot, Bool.or_eq_true, ih2, ih1]
        simp only [hnew, and_false, if_false]
        constructor
        · rintro ((h | ⟨c, h1, h2⟩) | h)
          · exact .inl h
          · exact .inr ⟨c, .inl h1, h2⟩
          · exact .inr ⟨_, .inr rfl, h⟩
        · rintro (h | ⟨c, h1 | rfl, h2⟩)
          · exact .inl (.inl h)
          · exact .inl (.inr ⟨c, h1, h2⟩)
          · exact .inr h2
    · simp only [hb, and_false, or_false, if_false, Bool.false_eq_true]
      exact ⟨ih1, ih2⟩

open Classical in
/-- A sprite of at most sixteen rows inverts exactly the pixels it covers, and hits exactly when one of them was set (R211). -/
theorem Drawing.rows_spec (px py : Byte) (bs : List Byte) (d : Drawing) (k : Nat) (hk : k + bs.length ≤ 16) :
    (∀ q c, (d.rows px py k bs).fb.pixel q c =
      if RowsCover px py k bs q c then !d.fb.pixel q c else d.fb.pixel q c) ∧
    ((d.rows px py k bs).hit = true ↔ d.hit = true ∨ ∃ q c, RowsCover px py k bs q c ∧ d.fb.pixel q c = true) := by
  induction bs generalizing d k with
  | nil => simp [RowsCover]
  | cons b bs ih =>
    simp only [List.length_cons] at hk
    obtain ⟨ih1, ih2⟩ := ih (d.row px (spriteRow py k) b) (k + 1) (by omega)
    obtain ⟨r1, r2⟩ := Drawing.row_spec d px (spriteRow py k) b
    have hno : ∀ c, ¬ RowsCover px py (k + 1) bs (spriteRow py k) c := by
      rintro c ⟨m, hm, h, -⟩
      have := spriteRow_inj (by omega) (by omega) h
      omega
    rw [Drawing.rows_cons]
    simp only [rowsCover_cons]
    constructor
    · intro q c
      rw [ih1, r1]
      by_cases hq : q = spriteRow py k
      · subst hq; simp [hno]
      · simp [hq]
    · rw [ih2, r2]
      constructor
      · rintro ((h | ⟨c, h1, h2⟩) | ⟨q, c, h1, h2⟩)
        · exact .inl h
        · exact .inr ⟨_, c, .inl ⟨rfl, h1⟩, h2⟩
        · refine .inr ⟨q, c, .inr h1, ?_⟩
          have hq : q ≠ spriteRow py k := by rintro rfl; exact hno c h1
          rw [r1] at h2; simpa [hq] using h2
      · rintro (h | ⟨q, c, ⟨rfl, h1⟩ | h1, h2⟩)
        · exact .inl (.inl h)
        · exact .inl (.inr ⟨c, h1, h2⟩)
        · refine .inr ⟨q, c, h1, ?_⟩
          have hq : q ≠ spriteRow py k := by rintro rfl; exact hno c h1
          rw [r1]; simpa [hq] using h2

end Sys2Proof.Machine
end

