-- ==== Sys2Proof/Laws/State.lean ====
section
/-! SUPPORT. What each update of the state does to each field, so that no proof unfolds one. -/

namespace Sys2Proof.Machine.State

@[simp] theorem setV_v (s : State) (x : Reg) (b : Byte) : (s.setV x b).v = s.v.set x b := rfl
@[simp] theorem setV_i (s : State) (x : Reg) (b : Byte) : (s.setV x b).i = s.i := rfl
@[simp] theorem setV_pc (s : State) (x : Reg) (b : Byte) : (s.setV x b).pc = s.pc := rfl
@[simp] theorem setV_sp (s : State) (x : Reg) (b : Byte) : (s.setV x b).sp = s.sp := rfl
@[simp] theorem setV_stack (s : State) (x : Reg) (b : Byte) : (s.setV x b).stack = s.stack := rfl
@[simp] theorem setV_dt (s : State) (x : Reg) (b : Byte) : (s.setV x b).dt = s.dt := rfl
@[simp] theorem setV_st (s : State) (x : Reg) (b : Byte) : (s.setV x b).st = s.st := rfl
@[simp] theorem setV_mem (s : State) (x : Reg) (b : Byte) : (s.setV x b).mem = s.mem := rfl
@[simp] theorem setV_fb (s : State) (x : Reg) (b : Byte) : (s.setV x b).fb = s.fb := rfl
@[simp] theorem setV_dirty (s : State) (x : Reg) (b : Byte) : (s.setV x b).dirty = s.dirty := rfl
@[simp] theorem setV_key (s : State) (x : Reg) (b : Byte) : (s.setV x b).key = s.key := rfl
@[simp] theorem setV_run (s : State) (x : Reg) (b : Byte) : (s.setV x b).run = s.run := rfl
@[simp] theorem setV_fault (s : State) (x : Reg) (b : Byte) : (s.setV x b).fault = s.fault := rfl
@[simp] theorem setV_rndIn (s : State) (x : Reg) (b : Byte) : (s.setV x b).rndIn = s.rndIn := rfl
@[simp] theorem setV_draws (s : State) (x : Reg) (b : Byte) : (s.setV x b).draws = s.draws := rfl
@[simp] theorem readMem_setV (s : State) (x : Reg) (b : Byte) (k : Nat) : (s.setV x b).readMem k = s.readMem k := rfl
@[simp] theorem pixel_setV (s : State) (x : Reg) (b : Byte) (r : Fin 32) (c : Fin 64) : (s.setV x b).pixel r c = s.pixel r c := rfl

@[simp] theorem setI_v (s : State) (a : Word) : (s.setI a).v = s.v := rfl
@[simp] theorem setI_i (s : State) (a : Word) : (s.setI a).i = a := rfl
@[simp] theorem setI_pc (s : State) (a : Word) : (s.setI a).pc = s.pc := rfl
@[simp] theorem setI_sp (s : State) (a : Word) : (s.setI a).sp = s.sp := rfl
@[simp] theorem setI_stack (s : State) (a : Word) : (s.setI a).stack = s.stack := rfl
@[simp] theorem setI_dt (s : State) (a : Word) : (s.setI a).dt = s.dt := rfl
@[simp] theorem setI_st (s : State) (a : Word) : (s.setI a).st = s.st := rfl
@[simp] theorem setI_mem (s : State) (a : Word) : (s.setI a).mem = s.mem := rfl
@[simp] theorem setI_fb (s : State) (a : Word) : (s.setI a).fb = s.fb := rfl
@[simp] theorem setI_dirty (s : State) (a : Word) : (s.setI a).dirty = s.dirty := rfl
@[simp] theorem setI_key (s : State) (a : Word) : (s.setI a).key = s.key := rfl
@[simp] theorem setI_run (s : State) (a : Word) : (s.setI a).run = s.run := rfl
@[simp] theorem setI_fault (s : State) (a : Word) : (s.setI a).fault = s.fault := rfl
@[simp] theorem setI_rndIn (s : State) (a : Word) : (s.setI a).rndIn = s.rndIn := rfl
@[simp] theorem setI_draws (s : State) (a : Word) : (s.setI a).draws = s.draws := rfl
@[simp] theorem getV_setI (s : State) (a : Word) (r : Reg) : (s.setI a).getV r = s.getV r := rfl
@[simp] theorem readMem_setI (s : State) (a : Word) (k : Nat) : (s.setI a).readMem k = s.readMem k := rfl
@[simp] theorem pixel_setI (s : State) (a : Word) (r : Fin 32) (c : Fin 64) : (s.setI a).pixel r c = s.pixel r c := rfl

@[simp] theorem setDt_v (s : State) (b : Byte) : (s.setDt b).v = s.v := rfl
@[simp] theorem setDt_i (s : State) (b : Byte) : (s.setDt b).i = s.i := rfl
@[simp] theorem setDt_pc (s : State) (b : Byte) : (s.setDt b).pc = s.pc := rfl
@[simp] theorem setDt_sp (s : State) (b : Byte) : (s.setDt b).sp = s.sp := rfl
@[simp] theorem setDt_stack (s : State) (b : Byte) : (s.setDt b).stack = s.stack := rfl
@[simp] theorem setDt_dt (s : State) (b : Byte) : (s.setDt b).dt = b := rfl
@[simp] theorem setDt_st (s : State) (b : Byte) : (s.setDt b).st = s.st := rfl
@[simp] theorem setDt_mem (s : State) (b : Byte) : (s.setDt b).mem = s.mem := rfl
@[simp] theorem setDt_fb (s : State) (b : Byte) : (s.setDt b).fb = s.fb := rfl
@[simp] theorem setDt_dirty (s : State) (b : Byte) : (s.setDt b).dirty = s.dirty := rfl
@[simp] theorem setDt_key (s : State) (b : Byte) : (s.setDt b).key = s.key := rfl
@[simp] theorem setDt_run (s : State) (b : Byte) : (s.setDt b).run = s.run := rfl
@[simp] theorem setDt_fault (s : State) (b : Byte) : (s.setDt b).fault = s.fault := rfl
@[simp] theorem setDt_rndIn (s : State) (b : Byte) : (s.setDt b).rndIn = s.rndIn := rfl
@[simp] theorem setDt_draws (s : State) (b : Byte) : (s.setDt b).draws = s.draws := rfl
@[simp] theorem getV_setDt (s : State) (b : Byte) (r : Reg) : (s.setDt b).getV r = s.getV r := rfl
@[simp] theorem readMem_setDt (s : State) (b : Byte) (k : Nat) : (s.setDt b).readMem k = s.readMem k := rfl
@[simp] theorem pixel_setDt (s : State) (b : Byte) (r : Fin 32) (c : Fin 64) : (s.setDt b).pixel r c = s.pixel r c := rfl

@[simp] theorem setSt_v (s : State) (b : Byte) : (s.setSt b).v = s.v := rfl
@[simp] theorem setSt_i (s : State) (b : Byte) : (s.setSt b).i = s.i := rfl
@[simp] theorem setSt_pc (s : State) (b : Byte) : (s.setSt b).pc = s.pc := rfl
@[simp] theorem setSt_sp (s : State) (b : Byte) : (s.setSt b).sp = s.sp := rfl
@[simp] theorem setSt_stack (s : State) (b : Byte) : (s.setSt b).stack = s.stack := rfl
@[simp] theorem setSt_dt (s : State) (b : Byte) : (s.setSt b).dt = s.dt := rfl
@[simp] theorem setSt_st (s : State) (b : Byte) : (s.setSt b).st = b := rfl
@[simp] theorem setSt_mem (s : State) (b : Byte) : (s.setSt b).mem = s.mem := rfl
@[simp] theorem setSt_fb (s : State) (b : Byte) : (s.setSt b).fb = s.fb := rfl
@[simp] theorem setSt_dirty (s : State) (b : Byte) : (s.setSt b).dirty = s.dirty := rfl
@[simp] theorem setSt_key (s : State) (b : Byte) : (s.setSt b).key = s.key := rfl
@[simp] theorem setSt_run (s : State) (b : Byte) : (s.setSt b).run = s.run := rfl
@[simp] theorem setSt_fault (s : State) (b : Byte) : (s.setSt b).fault = s.fault := rfl
@[simp] theorem setSt_rndIn (s : State) (b : Byte) : (s.setSt b).rndIn = s.rndIn := rfl
@[simp] theorem setSt_draws (s : State) (b : Byte) : (s.setSt b).draws = s.draws := rfl
@[simp] theorem getV_setSt (s : State) (b : Byte) (r : Reg) : (s.setSt b).getV r = s.getV r := rfl
@[simp] theorem readMem_setSt (s : State) (b : Byte) (k : Nat) : (s.setSt b).readMem k = s.readMem k := rfl
@[simp] theorem pixel_setSt (s : State) (b : Byte) (r : Fin 32) (c : Fin 64) : (s.setSt b).pixel r c = s.pixel r c := rfl

@[simp] theorem setDisplay_v (s : State) (d : Display) : (s.setDisplay d).v = s.v := rfl
@[simp] theorem setDisplay_i (s : State) (d : Display) : (s.setDisplay d).i = s.i := rfl
@[simp] theorem setDisplay_pc (s : State) (d : Display) : (s.setDisplay d).pc = s.pc := rfl
@[simp] theorem setDisplay_sp (s : State) (d : Display) : (s.setDisplay d).sp = s.sp := rfl
@[simp] theorem setDisplay_stack (s : State) (d : Display) : (s.setDisplay d).stack = s.stack := rfl
@[simp] theorem setDisplay_dt (s : State) (d : Display) : (s.setDisplay d).dt = s.dt := rfl
@[simp] theorem setDisplay_st (s : State) (d : Display) : (s.setDisplay d).st = s.st := rfl
@[simp] theorem setDisplay_mem (s : State) (d : Display) : (s.setDisplay d).mem = s.mem := rfl
@[simp] theorem setDisplay_fb (s : State) (d : Display) : (s.setDisplay d).fb = d := rfl
@[simp] theorem setDisplay_dirty (s : State) (d : Display) : (s.setDisplay d).dirty = true := rfl
@[simp] theorem setDisplay_key (s : State) (d : Display) : (s.setDisplay d).key = s.key := rfl
@[simp] theorem setDisplay_run (s : State) (d : Display) : (s.setDisplay d).run = s.run := rfl
@[simp] theorem setDisplay_fault (s : State) (d : Display) : (s.setDisplay d).fault = s.fault := rfl
@[simp] theorem setDisplay_rndIn (s : State) (d : Display) : (s.setDisplay d).rndIn = s.rndIn := rfl
@[simp] theorem setDisplay_draws (s : State) (d : Display) : (s.setDisplay d).draws = s.draws := rfl
@[simp] theorem getV_setDisplay (s : State) (d : Display) (r : Reg) : (s.setDisplay d).getV r = s.getV r := rfl
@[simp] theorem readMem_setDisplay (s : State) (d : Display) (k : Nat) : (s.setDisplay d).readMem k = s.readMem k := rfl

@[simp] theorem storeBytes_v (s : State) (a : Nat) (bs : List Byte) : (s.storeBytes a bs).v = s.v := rfl
@[simp] theorem storeBytes_i (s : State) (a : Nat) (bs : List Byte) : (s.storeBytes a bs).i = s.i := rfl
@[simp] theorem storeBytes_pc (s : State) (a : Nat) (bs : List Byte) : (s.storeBytes a bs).pc = s.pc := rfl
@[simp] theorem storeBytes_sp (s : State) (a : Nat) (bs : List Byte) : (s.storeBytes a bs).sp = s.sp := rfl
@[simp] theorem storeBytes_stack (s : State) (a : Nat) (bs : List Byte) : (s.storeBytes a bs).stack = s.stack := rfl
@[simp] theorem storeBytes_dt (s : State) (a : Nat) (bs : List Byte) : (s.storeBytes a bs).dt = s.dt := rfl
@[simp] theorem storeBytes_st (s : State) (a : Nat) (bs : List Byte) : (s.storeBytes a bs).st = s.st := rfl
@[simp] theorem storeBytes_mem (s : State) (a : Nat) (bs : List Byte) : (s.storeBytes a bs).mem = s.mem.writeBytes a bs := rfl
@[simp] theorem storeBytes_fb (s : State) (a : Nat) (bs : List Byte) : (s.storeBytes a bs).fb = s.fb := rfl
@[simp] theorem storeBytes_dirty (s : State) (a : Nat) (bs : List Byte) : (s.storeBytes a bs).dirty = s.dirty := rfl
@[simp] theorem storeBytes_key (s : State) (a : Nat) (bs : List Byte) : (s.storeBytes a bs).key = s.key := rfl
@[simp] theorem storeBytes_run (s : State) (a : Nat) (bs : List Byte) : (s.storeBytes a bs).run = s.run := rfl
@[simp] theorem storeBytes_fault (s : State) (a : Nat) (bs : List Byte) : (s.storeBytes a bs).fault = s.fault := rfl
@[simp] theorem storeBytes_rndIn (s : State) (a : Nat) (bs : List Byte) : (s.storeBytes a bs).rndIn = s.rndIn := rfl
@[simp] theorem storeBytes_draws (s : State) (a : Nat) (bs : List Byte) : (s.storeBytes a bs).draws = s.draws := rfl
@[simp] theorem getV_storeBytes (s : State) (a : Nat) (bs : List Byte) (r : Reg) : (s.storeBytes a bs).getV r = s.getV r := rfl
@[simp] theorem pixel_storeBytes (s : State) (a : Nat) (bs : List Byte) (r : Fin 32) (c : Fin 64) : (s.storeBytes a bs).pixel r c = s.pixel r c := rfl

@[simp] theorem push_v (s : State) (a : Word) (h : s.sp.val < 16) : (s.push a h).v = s.v := rfl
@[simp] theorem push_i (s : State) (a : Word) (h : s.sp.val < 16) : (s.push a h).i = s.i := rfl
@[simp] theorem push_pc (s : State) (a : Word) (h : s.sp.val < 16) : (s.push a h).pc = s.pc := rfl
@[simp] theorem push_sp (s : State) (a : Word) (h : s.sp.val < 16) : (s.push a h).sp = ⟨s.sp.val + 1, by omega⟩ := rfl
@[simp] theorem push_stack (s : State) (a : Word) (h : s.sp.val < 16) : (s.push a h).stack = s.stack.set s.sp.val a h := rfl
@[simp] theorem push_dt (s : State) (a : Word) (h : s.sp.val < 16) : (s.push a h).dt = s.dt := rfl
@[simp] theorem push_st (s : State) (a : Word) (h : s.sp.val < 16) : (s.push a h).st = s.st := rfl
@[simp] theorem push_mem (s : State) (a : Word) (h : s.sp.val < 16) : (s.push a h).mem = s.mem := rfl
@[simp] theorem push_fb (s : State) (a : Word) (h : s.sp.val < 16) : (s.push a h).fb = s.fb := rfl
@[simp] theorem push_dirty (s : State) (a : Word) (h : s.sp.val < 16) : (s.push a h).dirty = s.dirty := rfl
@[simp] theorem push_key (s : State) (a : Word) (h : s.sp.val < 16) : (s.push a h).key = s.key := rfl
@[simp] theorem push_run (s : State) (a : Word) (h : s.sp.val < 16) : (s.push a h).run = s.run := rfl
@[simp] theorem push_fault (s : State) (a : Word) (h : s.sp.val < 16) : (s.push a h).fault = s.fault := rfl
@[simp] theorem push_rndIn (s : State) (a : Word) (h : s.sp.val < 16) : (s.push a h).rndIn = s.rndIn := rfl
@[simp] theorem push_draws (s : State) (a : Word) (h : s.sp.val < 16) : (s.push a h).draws = s.draws := rfl
@[simp] theorem getV_push (s : State) (a : Word) (h : s.sp.val < 16) (r : Reg) : (s.push a h).getV r = s.getV r := rfl
@[simp] theorem readMem_push (s : State) (a : Word) (h : s.sp.val < 16) (k : Nat) : (s.push a h).readMem k = s.readMem k := rfl
@[simp] theorem pixel_push (s : State) (a : Word) (h : s.sp.val < 16) (r : Fin 32) (c : Fin 64) : (s.push a h).pixel r c = s.pixel r c := rfl

@[simp] theorem pop_v (s : State) : s.pop.v = s.v := rfl
@[simp] theorem pop_i (s : State) : s.pop.i = s.i := rfl
@[simp] theorem pop_pc (s : State) : s.pop.pc = s.pc := rfl
@[simp] theorem pop_sp (s : State) : s.pop.sp = ⟨s.sp.val - 1, by omega⟩ := rfl
@[simp] theorem pop_stack (s : State) : s.pop.stack = s.stack := rfl
@[simp] theorem pop_dt (s : State) : s.pop.dt = s.dt := rfl
@[simp] theorem pop_st (s : State) : s.pop.st = s.st := rfl
@[simp] theorem pop_mem (s : State) : s.pop.mem = s.mem := rfl
@[simp] theorem pop_fb (s : State) : s.pop.fb = s.fb := rfl
@[simp] theorem pop_dirty (s : State) : s.pop.dirty = s.dirty := rfl
@[simp] theorem pop_key (s : State) : s.pop.key = s.key := rfl
@[simp] theorem pop_run (s : State) : s.pop.run = s.run := rfl
@[simp] theorem pop_fault (s : State) : s.pop.fault = s.fault := rfl
@[simp] theorem pop_rndIn (s : State) : s.pop.rndIn = s.rndIn := rfl
@[simp] theorem pop_draws (s : State) : s.pop.draws = s.draws := rfl
@[simp] theorem getV_pop (s : State) (r : Reg) : s.pop.getV r = s.getV r := rfl
@[simp] theorem readMem_pop (s : State) (k : Nat) : s.pop.readMem k = s.readMem k := rfl
@[simp] theorem pixel_pop (s : State) (r : Fin 32) (c : Fin 64) : s.pop.pixel r c = s.pixel r c := rfl

@[simp] theorem consumeRnd_v (s : State) : s.consumeRnd.v = s.v := rfl
@[simp] theorem consumeRnd_i (s : State) : s.consumeRnd.i = s.i := rfl
@[simp] theorem consumeRnd_pc (s : State) : s.consumeRnd.pc = s.pc := rfl
@[simp] theorem consumeRnd_sp (s : State) : s.consumeRnd.sp = s.sp := rfl
@[simp] theorem consumeRnd_stack (s : State) : s.consumeRnd.stack = s.stack := rfl
@[simp] theorem consumeRnd_dt (s : State) : s.consumeRnd.dt = s.dt := rfl
@[simp] theorem consumeRnd_st (s : State) : s.consumeRnd.st = s.st := rfl
@[simp] theorem consumeRnd_mem (s : State) : s.consumeRnd.mem = s.mem := rfl
@[simp] theorem consumeRnd_fb (s : State) : s.consumeRnd.fb = s.fb := rfl
@[simp] theorem consumeRnd_dirty (s : State) : s.consumeRnd.dirty = s.dirty := rfl
@[simp] theorem consumeRnd_key (s : State) : s.consumeRnd.key = s.key := rfl
@[simp] theorem consumeRnd_run (s : State) : s.consumeRnd.run = s.run := rfl
@[simp] theorem consumeRnd_fault (s : State) : s.consumeRnd.fault = s.fault := rfl
@[simp] theorem consumeRnd_rndIn (s : State) : s.consumeRnd.rndIn = none := rfl
@[simp] theorem consumeRnd_draws (s : State) : s.consumeRnd.draws = s.draws + 1 := rfl
@[simp] theorem getV_consumeRnd (s : State) (r : Reg) : s.consumeRnd.getV r = s.getV r := rfl
@[simp] theorem readMem_consumeRnd (s : State) (k : Nat) : s.consumeRnd.readMem k = s.readMem k := rfl
@[simp] theorem pixel_consumeRnd (s : State) (r : Fin 32) (c : Fin 64) : s.consumeRnd.pixel r c = s.pixel r c := rfl

@[simp] theorem goTo_v (s : State) (a : Word) : (s.goTo a).v = s.v := rfl
@[simp] theorem goTo_i (s : State) (a : Word) : (s.goTo a).i = s.i := rfl
@[simp] theorem goTo_pc (s : State) (a : Word) : (s.goTo a).pc = a := rfl
@[simp] theorem goTo_sp (s : State) (a : Word) : (s.goTo a).sp = s.sp := rfl
@[simp] theorem goTo_stack (s : State) (a : Word) : (s.goTo a).stack = s.stack := rfl
@[simp] theorem goTo_dt (s : State) (a : Word) : (s.goTo a).dt = s.dt := rfl
@[simp] theorem goTo_st (s : State) (a : Word) : (s.goTo a).st = s.st := rfl
@[simp] theorem goTo_mem (s : State) (a : Word) : (s.goTo a).mem = s.mem := rfl
@[simp] theorem goTo_fb (s : State) (a : Word) : (s.goTo a).fb = s.fb := rfl
@[simp] theorem goTo_dirty (s : State) (a : Word) : (s.goTo a).dirty = s.dirty := rfl
@[simp] theorem goTo_key (s : State) (a : Word) : (s.goTo a).key = s.key := rfl
@[simp] theorem goTo_run (s : State) (a : Word) : (s.goTo a).run = .running := rfl
@[simp] theorem goTo_fault (s : State) (a : Word) : (s.goTo a).fault = s.fault := rfl
@[simp] theorem goTo_rndIn (s : State) (a : Word) : (s.goTo a).rndIn = s.rndIn := rfl
@[simp] theorem goTo_draws (s : State) (a : Word) : (s.goTo a).draws = s.draws := rfl
@[simp] theorem getV_goTo (s : State) (a : Word) (r : Reg) : (s.goTo a).getV r = s.getV r := rfl
@[simp] theorem readMem_goTo (s : State) (a : Word) (k : Nat) : (s.goTo a).readMem k = s.readMem k := rfl
@[simp] theorem pixel_goTo (s : State) (a : Word) (r : Fin 32) (c : Fin 64) : (s.goTo a).pixel r c = s.pixel r c := rfl

@[simp] theorem await_v (s : State) : s.await.v = s.v := rfl
@[simp] theorem await_i (s : State) : s.await.i = s.i := rfl
@[simp] theorem await_pc (s : State) : s.await.pc = s.pc := rfl
@[simp] theorem await_sp (s : State) : s.await.sp = s.sp := rfl
@[simp] theorem await_stack (s : State) : s.await.stack = s.stack := rfl
@[simp] theorem await_dt (s : State) : s.await.dt = s.dt := rfl
@[simp] theorem await_st (s : State) : s.await.st = s.st := rfl
@[simp] theorem await_mem (s : State) : s.await.mem = s.mem := rfl
@[simp] theorem await_fb (s : State) : s.await.fb = s.fb := rfl
@[simp] theorem await_dirty (s : State) : s.await.dirty = s.dirty := rfl
@[simp] theorem await_key (s : State) : s.await.key = s.key := rfl
@[simp] theorem await_run (s : State) : s.await.run = .awaitingKey := rfl
@[simp] theorem await_fault (s : State) : s.await.fault = s.fault := rfl
@[simp] theorem await_rndIn (s : State) : s.await.rndIn = s.rndIn := rfl
@[simp] theorem await_draws (s : State) : s.await.draws = s.draws := rfl
@[simp] theorem getV_await (s : State) (r : Reg) : s.await.getV r = s.getV r := rfl
@[simp] theorem readMem_await (s : State) (k : Nat) : s.await.readMem k = s.readMem k := rfl
@[simp] theorem pixel_await (s : State) (r : Fin 32) (c : Fin 64) : s.await.pixel r c = s.pixel r c := rfl

@[simp] theorem raise_v (s : State) (f : Fault) : (s.raise f).v = s.v := rfl
@[simp] theorem raise_i (s : State) (f : Fault) : (s.raise f).i = s.i := rfl
@[simp] theorem raise_pc (s : State) (f : Fault) : (s.raise f).pc = s.pc := rfl
@[simp] theorem raise_sp (s : State) (f : Fault) : (s.raise f).sp = s.sp := rfl
@[simp] theorem raise_stack (s : State) (f : Fault) : (s.raise f).stack = s.stack := rfl
@[simp] theorem raise_dt (s : State) (f : Fault) : (s.raise f).dt = s.dt := rfl
@[simp] theorem raise_st (s : State) (f : Fault) : (s.raise f).st = s.st := rfl
@[simp] theorem raise_mem (s : State) (f : Fault) : (s.raise f).mem = s.mem := rfl
@[simp] theorem raise_fb (s : State) (f : Fault) : (s.raise f).fb = s.fb := rfl
@[simp] theorem raise_dirty (s : State) (f : Fault) : (s.raise f).dirty = s.dirty := rfl
@[simp] theorem raise_key (s : State) (f : Fault) : (s.raise f).key = s.key := rfl
@[simp] theorem raise_run (s : State) (f : Fault) : (s.raise f).run = .faulted := rfl
@[simp] theorem raise_fault (s : State) (f : Fault) : (s.raise f).fault = some f := rfl
@[simp] theorem raise_rndIn (s : State) (f : Fault) : (s.raise f).rndIn = s.rndIn := rfl
@[simp] theorem raise_draws (s : State) (f : Fault) : (s.raise f).draws = s.draws := rfl
@[simp] theorem getV_raise (s : State) (f : Fault) (r : Reg) : (s.raise f).getV r = s.getV r := rfl
@[simp] theorem readMem_raise (s : State) (f : Fault) (k : Nat) : (s.raise f).readMem k = s.readMem k := rfl
@[simp] theorem pixel_raise (s : State) (f : Fault) (r : Fin 32) (c : Fin 64) : (s.raise f).pixel r c = s.pixel r c := rfl

@[simp] theorem loadRegs_v (s : State) (x : Reg) : (s.loadRegs x).v = .ofFn fun k => if k ≤ x then s.readMem (s.i.toNat + k.val) else s.getV k := rfl
@[simp] theorem loadRegs_i (s : State) (x : Reg) : (s.loadRegs x).i = s.i := rfl
@[simp] theorem loadRegs_pc (s : State) (x : Reg) : (s.loadRegs x).pc = s.pc := rfl
@[simp] theorem loadRegs_sp (s : State) (x : Reg) : (s.loadRegs x).sp = s.sp := rfl
@[simp] theorem loadRegs_stack (s : State) (x : Reg) : (s.loadRegs x).stack = s.stack := rfl
@[simp] theorem loadRegs_dt (s : State) (x : Reg) : (s.loadRegs x).dt = s.dt := rfl
@[simp] theorem loadRegs_st (s : State) (x : Reg) : (s.loadRegs x).st = s.st := rfl
@[simp] theorem loadRegs_mem (s : State) (x : Reg) : (s.loadRegs x).mem = s.mem := rfl
@[simp] theorem loadRegs_fb (s : State) (x : Reg) : (s.loadRegs x).fb = s.fb := rfl
@[simp] theorem loadRegs_dirty (s : State) (x : Reg) : (s.loadRegs x).dirty = s.dirty := rfl
@[simp] theorem loadRegs_key (s : State) (x : Reg) : (s.loadRegs x).key = s.key := rfl
@[simp] theorem loadRegs_run (s : State) (x : Reg) : (s.loadRegs x).run = s.run := rfl
@[simp] theorem loadRegs_fault (s : State) (x : Reg) : (s.loadRegs x).fault = s.fault := rfl
@[simp] theorem loadRegs_rndIn (s : State) (x : Reg) : (s.loadRegs x).rndIn = s.rndIn := rfl
@[simp] theorem loadRegs_draws (s : State) (x : Reg) : (s.loadRegs x).draws = s.draws := rfl
@[simp] theorem readMem_loadRegs (s : State) (x : Reg) (k : Nat) : (s.loadRegs x).readMem k = s.readMem k := rfl
@[simp] theorem pixel_loadRegs (s : State) (x : Reg) (r : Fin 32) (c : Fin 64) : (s.loadRegs x).pixel r c = s.pixel r c := rfl

@[simp] theorem keyWrite_v (s : State) (k : Reg) (b : Bool) : (s.keyWrite k b).v = s.v := rfl
@[simp] theorem keyWrite_i (s : State) (k : Reg) (b : Bool) : (s.keyWrite k b).i = s.i := rfl
@[simp] theorem keyWrite_pc (s : State) (k : Reg) (b : Bool) : (s.keyWrite k b).pc = s.pc := rfl
@[simp] theorem keyWrite_sp (s : State) (k : Reg) (b : Bool) : (s.keyWrite k b).sp = s.sp := rfl
@[simp] theorem keyWrite_stack (s : State) (k : Reg) (b : Bool) : (s.keyWrite k b).stack = s.stack := rfl
@[simp] theorem keyWrite_dt (s : State) (k : Reg) (b : Bool) : (s.keyWrite k b).dt = s.dt := rfl
@[simp] theorem keyWrite_st (s : State) (k : Reg) (b : Bool) : (s.keyWrite k b).st = s.st := rfl
@[simp] theorem keyWrite_mem (s : State) (k : Reg) (b : Bool) : (s.keyWrite k b).mem = s.mem := rfl
@[simp] theorem keyWrite_fb (s : State) (k : Reg) (b : Bool) : (s.keyWrite k b).fb = s.fb := rfl
@[simp] theorem keyWrite_dirty (s : State) (k : Reg) (b : Bool) : (s.keyWrite k b).dirty = s.dirty := rfl
@[simp] theorem keyWrite_key (s : State) (k : Reg) (b : Bool) : (s.keyWrite k b).key = s.key.set k b := rfl
@[simp] theorem keyWrite_run (s : State) (k : Reg) (b : Bool) : (s.keyWrite k b).run = s.run := rfl
@[simp] theorem keyWrite_fault (s : State) (k : Reg) (b : Bool) : (s.keyWrite k b).fault = s.fault := rfl
@[simp] theorem keyWrite_rndIn (s : State) (k : Reg) (b : Bool) : (s.keyWrite k b).rndIn = s.rndIn := rfl
@[simp] theorem keyWrite_draws (s : State) (k : Reg) (b : Bool) : (s.keyWrite k b).draws = s.draws := rfl
@[simp] theorem getV_keyWrite (s : State) (k : Reg) (b : Bool) (r : Reg) : (s.keyWrite k b).getV r = s.getV r := rfl
@[simp] theorem readMem_keyWrite (s : State) (k : Reg) (b : Bool) (a : Nat) : (s.keyWrite k b).readMem a = s.readMem a := rfl
@[simp] theorem pixel_keyWrite (s : State) (k : Reg) (b : Bool) (r : Fin 32) (c : Fin 64) : (s.keyWrite k b).pixel r c = s.pixel r c := rfl

@[simp] theorem dirtyClear_v (s : State) : s.dirtyClear.v = s.v := rfl
@[simp] theorem dirtyClear_i (s : State) : s.dirtyClear.i = s.i := rfl
@[simp] theorem dirtyClear_pc (s : State) : s.dirtyClear.pc = s.pc := rfl
@[simp] theorem dirtyClear_sp (s : State) : s.dirtyClear.sp = s.sp := rfl
@[simp] theorem dirtyClear_stack (s : State) : s.dirtyClear.stack = s.stack := rfl
@[simp] theorem dirtyClear_dt (s : State) : s.dirtyClear.dt = s.dt := rfl
@[simp] theorem dirtyClear_st (s : State) : s.dirtyClear.st = s.st := rfl
@[simp] theorem dirtyClear_mem (s : State) : s.dirtyClear.mem = s.mem := rfl
@[simp] theorem dirtyClear_fb (s : State) : s.dirtyClear.fb = s.fb := rfl
@[simp] theorem dirtyClear_dirty (s : State) : s.dirtyClear.dirty = false := rfl
@[simp] theorem dirtyClear_key (s : State) : s.dirtyClear.key = s.key := rfl
@[simp] theorem dirtyClear_run (s : State) : s.dirtyClear.run = s.run := rfl
@[simp] theorem dirtyClear_fault (s : State) : s.dirtyClear.fault = s.fault := rfl
@[simp] theorem dirtyClear_rndIn (s : State) : s.dirtyClear.rndIn = s.rndIn := rfl
@[simp] theorem dirtyClear_draws (s : State) : s.dirtyClear.draws = s.draws := rfl
@[simp] theorem getV_dirtyClear (s : State) (r : Reg) : s.dirtyClear.getV r = s.getV r := rfl
@[simp] theorem readMem_dirtyClear (s : State) (k : Nat) : s.dirtyClear.readMem k = s.readMem k := rfl
@[simp] theorem pixel_dirtyClear (s : State) (r : Fin 32) (c : Fin 64) : s.dirtyClear.pixel r c = s.pixel r c := rfl

@[simp] theorem setFlag_eq (s : State) (f : Bool) : s.setFlag f = s.setV vF (Flag.byte f) := rfl
@[simp] theorem advance_eq (s : State) : s.advance = s.goTo (s.pc + 2) := rfl
@[simp] theorem skipIf_eq (s : State) (c : Bool) : s.skipIf c = s.goTo (s.pc + if c then 4 else 2) := rfl

/-- Reading a register after writing one. -/
@[simp] theorem getV_setV (s : State) (x r : Reg) (b : Byte) : (s.setV x b).getV r = if r = x then b else s.getV r := by
  by_cases h : r = x
  · subst h; simp [getV, setV]
  · simp [getV, setV, h, Fin.val_ne_of_ne (Ne.symm h)]

/-- Reading a register after Fx65 has loaded the first `x + 1`. -/
@[simp] theorem getV_loadRegs (s : State) (x r : Reg) :
    (s.loadRegs x).getV r = if r ≤ x then s.readMem (s.i.toNat + r.val) else s.getV r := by
  simp [getV, loadRegs]

/-- Two states with equal registers through `getV` have equal register files. -/
theorem v_ext (s t : State) (h : ∀ r : Reg, s.getV r = t.getV r) : s.v = t.v := by
  apply Vector.ext
  intro i hi
  exact h ⟨i, hi⟩

end Sys2Proof.Machine.State
end

