-- ==== Sys2Proof/Laws/Frame.lean ====
section
/-! SUPPORT. How a frame is shown from equal fields, and the flags as numbers. -/

namespace Sys2Proof.Machine

/-- The parts kept, from the fields kept. -/
theorem kept_of_fields {s t : State} (ps : List Part) (h1 : .i ∈ ps ∨ t.i = s.i)
    (h2 : .stack ∈ ps ∨ (t.sp = s.sp ∧ t.stack = s.stack)) (h3 : .dt ∈ ps ∨ t.dt = s.dt) (h4 : .st ∈ ps ∨ t.st = s.st)
    (h5 : .mem ∈ ps ∨ t.mem = s.mem) (h6 : .display ∈ ps ∨ t.fb = s.fb) (h7 : .dirty ∈ ps ∨ t.dirty = s.dirty)
    (h8 : .fault ∈ ps ∨ t.fault = s.fault) (h9 : .draws ∈ ps ∨ (t.rndIn = s.rndIn ∧ t.draws = s.draws)) :
    ∀ p, p ∉ ps → p.kept s t := by
  intro p hp
  cases p <;> simp only [hp, false_or] at * <;> simp_all [Part.kept, State.readMem, State.pixel]

/-- A frame, from its registers, the latch and its parts. -/
theorem Frame.of_key {s t : State} {ws : List Reg} {ps : List Part} (hr : ∀ r, r ∉ ws → t.getV r = s.getV r)
    (hk : t.key = s.key) (hp : ∀ p, p ∉ ps → p.kept s t) : Frame s t ws ps :=
  ⟨hr, fun k => by simp [State.pressed, hk], hp⟩

/-- Where only `PC` and `RUN` moved, the frame is empty. -/
theorem Frame.of_pc_run {s t : State} (h : t = { s with pc := t.pc, run := t.run }) : Frame s t [] [] := by
  rw [h]
  refine ⟨fun r _ => rfl, fun k => rfl, fun p _ => ?_⟩
  cases p <;> simp [Part.kept, State.readMem, State.pixel]

/-- Taking a fault is what `FaultTaken` says. -/
theorem faultTaken_raise (s : State) (f : Fault) : FaultTaken s (s.raise f) f := by
  refine ⟨rfl, rfl, rfl, fun r _ => rfl, fun k => rfl, fun p hp => ?_⟩
  cases p <;> simp_all [Part.kept]

@[simp] theorem Flag.toNat_byte (f : Bool) : (Flag.byte f).toNat = f.toNat := by cases f <;> rfl

theorem Flag.outRight_eq (a : Byte) : Flag.outRight a = decide (a.toNat % 2 = 1) := by
  revert a; decide

theorem Flag.outLeft_eq (a : Byte) : Flag.outLeft a = decide (a.toNat ≥ 128) := by
  revert a; decide

end Sys2Proof.Machine
end

