-- ==== Sys2Proof/Laws/Memory.lean ====
section
/-! SUPPORT. The laws of memory: read after write, the canonical form is kept, and equal reads are equal memories. -/

namespace Sys2Proof.Machine.Memory

theorem read_insert (m : Memory) (a k : Nat) (b : Byte) : (m.insert a b).read k = if k = a then b else m.read k := by
  induction m with
  | nil => simp only [insert, read]; split <;> split <;> simp_all
  | cons c rest ih =>
    obtain ⟨j, v⟩ := c
    simp only [insert]
    split
    · simp only [read, eq_comm]
    · split
      · next h => subst h; simp only [read, eq_comm (a := k)]; split <;> simp_all
      · simp only [read, ih]; split <;> split <;> simp_all

/-- An address that a canonical list does not name reads as unlisted. -/
theorem read_of_not_listed (m : Memory) (a : Nat) (h : ∀ c ∈ m, c.1 ≠ a) : m.read a = unlisted a := by
  induction m with
  | nil => rfl
  | cons c rest ih =>
    obtain ⟨j, v⟩ := c
    have hj : j ≠ a := h (j, v) (by simp)
    simp only [read, hj, if_false]
    exact ih fun c hc => h c (by simp [hc])

theorem read_of_mem (m : Memory) (hs : m.Pairwise (fun c d => c.1 < d.1)) (c : Host.Cell) (hc : c ∈ m) :
    m.read c.1 = c.2 := by
  induction m with
  | nil => simp at hc
  | cons d rest ih =>
    obtain ⟨j, v⟩ := d
    obtain ⟨hd, hr⟩ := List.pairwise_cons.1 hs
    rcases List.mem_cons.1 hc with rfl | hc'
    · simp [read]
    · have hlt := hd c hc'
      simp only at hlt
      simp only [read, Nat.ne_of_lt hlt, if_false]
      exact ih hr hc'

theorem mem_of_mem_erase (m : Memory) (a : Nat) (c : Host.Cell) (hc : c ∈ m.erase a) : c ∈ m := by
  induction m with
  | nil => simp [erase] at hc
  | cons d rest ih =>
    simp only [erase] at hc
    split at hc
    · exact List.mem_cons_of_mem _ hc
    · rcases List.mem_cons.1 hc with rfl | h
      · simp
      · exact List.mem_cons_of_mem _ (ih h)

theorem sorted_erase (m : Memory) (a : Nat) (hs : m.Pairwise (fun c d => c.1 < d.1)) :
    (m.erase a).Pairwise (fun c d => c.1 < d.1) := by
  induction m with
  | nil => simp [erase]
  | cons d rest ih =>
    obtain ⟨hd, hr⟩ := List.pairwise_cons.1 hs
    simp only [erase]
    split
    · exact hr
    · exact List.pairwise_cons.2 ⟨fun c hc => hd c (mem_of_mem_erase rest a c hc), ih hr⟩

theorem read_erase (m : Memory) (a k : Nat) (hs : m.Pairwise (fun c d => c.1 < d.1)) :
    (m.erase a).read k = if k = a then unlisted a else m.read k := by
  induction m with
  | nil => simp only [erase, read]; split <;> simp_all
  | cons d rest ih =>
    obtain ⟨j, v⟩ := d
    obtain ⟨hd, hr⟩ := List.pairwise_cons.1 hs
    simp only [erase]
    split
    · next hj =>
      subst hj
      split
      · next hk =>
        subst hk
        exact read_of_not_listed rest k fun c hc => Nat.ne_of_gt (hd c hc)
      · next hk => simp [read, Ne.symm hk]
    · simp only [read, ih hr]
      split <;> split <;> simp_all

theorem mem_of_mem_insert (m : Memory) (a : Nat) (b : Byte) (c : Host.Cell) (hc : c ∈ m.insert a b) :
    c = (a, b) ∨ c ∈ m := by
  induction m with
  | nil => simpa [insert] using hc
  | cons d rest ih =>
    simp only [insert] at hc
    split at hc
    · simpa using hc
    · split at hc
      · rcases List.mem_cons.1 hc with h | h
        · exact .inl h
        · exact .inr (List.mem_cons_of_mem _ h)
      · rcases List.mem_cons.1 hc with rfl | h
        · exact .inr (by simp)
        · exact (ih h).imp_right (List.mem_cons_of_mem _)

theorem sorted_insert (m : Memory) (a : Nat) (b : Byte) (hs : m.Pairwise (fun c d => c.1 < d.1)) :
    (m.insert a b).Pairwise (fun c d => c.1 < d.1) := by
  induction m with
  | nil => simp [insert]
  | cons d rest ih =>
    obtain ⟨hd, hr⟩ := List.pairwise_cons.1 hs
    simp only [insert]
    split
    · next h =>
      refine List.pairwise_cons.2 ⟨fun c hc => ?_, hs⟩
      rcases List.mem_cons.1 hc with rfl | hc'
      · exact h
      · exact Nat.lt_trans h (hd c hc')
    · split
      · next h => subst h; exact List.pairwise_cons.2 ⟨hd, hr⟩
      · refine List.pairwise_cons.2 ⟨fun c hc => ?_, ih hr⟩
        rcases mem_of_mem_insert rest a b c hc with rfl | hc'
        · simp only; omega
        · exact hd c hc'

/-- Read after write, for a canonical memory. -/
theorem read_write (m : Memory) (hw : m.wf) (a k : Nat) (b : Byte) :
    (m.write a b).read k = if k = a then b else m.read k := by
  simp only [write]
  split
  · next h => rw [read_erase m a k hw.1, h]
  · exact read_insert m a k b

/-- A write inside the 4096 bytes keeps the canonical form. -/
theorem wf_write (m : Memory) (hw : m.wf) (a : Nat) (b : Byte) (ha : a < 4096) : (m.write a b).wf := by
  simp only [write]
  split
  · exact ⟨sorted_erase m a hw.1, fun c hc => hw.2 c (mem_of_mem_erase m a c hc)⟩
  · next h =>
    refine ⟨sorted_insert m a b hw.1, fun c hc => ?_⟩
    rcases mem_of_mem_insert m a b c hc with rfl | hc'
    · exact ⟨ha, h⟩
    · exact hw.2 c hc'

theorem wf_writeBytes (m : Memory) (hw : m.wf) (a : Nat) (bs : List Byte) (ha : a + bs.length ≤ 4096) :
    (m.writeBytes a bs).wf := by
  induction bs generalizing m a with
  | nil => exact hw
  | cons b bs ih =>
    simp only [List.length_cons] at ha
    exact ih _ (wf_write m hw a b (by omega)) (a + 1) (by omega)

/-- What a block of stored bytes leaves: the bytes inside, the old contents outside. -/
theorem read_writeBytes (m : Memory) (hw : m.wf) (a k : Nat) (bs : List Byte) (ha : a + bs.length ≤ 4096) :
    (m.writeBytes a bs).read k = if a ≤ k ∧ k < a + bs.length then bs.getD (k - a) 0 else m.read k := by
  induction bs generalizing m a with
  | nil => simp only [writeBytes, List.length_nil]; split <;> first | omega | rfl
  | cons b bs ih =>
    simp only [List.length_cons] at ha ⊢
    simp only [writeBytes]
    rw [ih (m.write a b) (wf_write m hw a b (by omega)) (a + 1) (by omega), read_write m hw]
    by_cases hk : k = a
    · subst hk; simp
    · by_cases h1 : a + 1 ≤ k ∧ k < a + 1 + bs.length
      · have h2 : a ≤ k ∧ k < a + (bs.length + 1) := by omega
        have h3 : k - a = (k - (a + 1)) + 1 := by omega
        simp only [h1, h2, h3, if_true, List.getD_cons_succ, and_self]
      · have h2 : ¬ (a ≤ k ∧ k < a + (bs.length + 1)) := by omega
        simp only [h1, h2, hk, if_false]

theorem readBytes_length (m : Memory) (a len : Nat) : (m.readBytes a len).length = len := by simp [readBytes]

theorem readBytes_getElem (m : Memory) (a len k : Nat) (h : k < (m.readBytes a len).length) :
    (m.readBytes a len)[k] = m.read (a + k) := by simp [readBytes]

end Sys2Proof.Machine.Memory
end

