-- ==== Sys2Proof/Laws/Ops.lean ====
section
/-! SUPPORT. What each shared operation can do, said once. -/

namespace Sys2Proof.Machine

/-! ### Operands -/

theorem toNat_zext16 (a : Imm12) : (zext16 a).toNat = a.toNat := by simp [zext16]; omega

theorem toNat_zextByte (b : Byte) : (zextByte b).toNat = b.toNat := by simp [zextByte]; omega

theorem State.rangeOk_iff (s : State) (len : Nat) : s.rangeOk len = true ↔ (len = 0 ∨ s.i.toNat + len ≤ 4096) := by
  simp [State.rangeOk]

/-- The range check: the instruction's own end where the bytes exist, `AddressFault` where one does not. -/
theorem State.checkRange_cases {s done t : State} {len : Nat} (h : s.checkRange len done = .next t) :
    (s.rangeOk len = true ∧ t = done) ∨ (s.rangeOk len = false ∧ t = s.raise .addressFault) := by
  unfold State.checkRange at h
  split at h
  · next hr => exact .inl ⟨hr, (Host.Outcome.next.inj h).symm⟩
  · next hr => exact .inr ⟨by simpa using hr, (Host.Outcome.next.inj h).symm⟩

theorem State.checkRange_ok {s : State} {len : Nat} (done : State) (h : s.rangeOk len = true) :
    s.checkRange len done = .next done := if_pos h

theorem State.checkRange_bad {s : State} {len : Nat} (done : State) (h : s.rangeOk len = false) :
    s.checkRange len done = .next (s.raise .addressFault) := by simp [State.checkRange, h]

/-- A byte is a key index exactly when it is at most 15. -/
theorem keyIndex_eq_some (b : Byte) (k : Reg) : keyIndex b = some k ↔ b.toNat = k.val := by
  unfold keyIndex
  split
  · simp [Fin.ext_iff]
  · next h => simp; omega

theorem keyIndex_eq_none (b : Byte) : keyIndex b = none ↔ 15 < b.toNat := by
  unfold keyIndex
  split <;> simp <;> omega

/-- The lowest pressed key is pressed and no lower one is. -/
theorem State.lowestKey_eq_some (s : State) (k : Reg) :
    s.lowestKey = some k ↔ (s.pressed k = true ∧ ∀ j < k, s.pressed j = false) := by
  unfold State.lowestKey
  rw [List.find?_eq_some_iff_getElem]
  constructor
  · rintro ⟨hk, n, hn, hnk, hlt⟩
    simp only [List.getElem_finRange] at hnk hlt
    have hv : n = k.val := by rw [← hnk]; simp
    refine ⟨hk, fun j hj => ?_⟩
    have := hlt j.val (by rw [hv]; exact hj)
    simpa using this
  · rintro ⟨hk, hlt⟩
    refine ⟨hk, k.val, by simp, by simp, fun j hj => ?_⟩
    have hj16 : j < 16 := Nat.lt_trans hj k.isLt
    simpa using hlt ⟨j, hj16⟩ hj

theorem State.lowestKey_eq_none (s : State) : s.lowestKey = none ↔ ∀ k, s.pressed k = false := by
  simp [State.lowestKey]

/-! ### Stack -/

theorem State.push_stack_getElem (s : State) (a : Word) (h : s.sp.val < 16) (j : Nat) (hj : j < 16) :
    (s.push a h).stack[j] = if j = s.sp.val then a else s.stack[j] := by
  simp [Vector.getElem_set, eq_comm]

/-- What was pushed is what a pop would return. -/
theorem State.top_push (s : State) (a : Word) (h : s.sp.val < 16) :
    (s.push a h).top (by simp) = a := by
  simp [State.top]

theorem State.pop_push_sp (s : State) (a : Word) (h : s.sp.val < 16) : (s.push a h).pop.sp = s.sp := by
  simp

/-! ### Timers -/

theorem toNat_countDown (t : Byte) : (countDown t).toNat = t.toNat - 1 := by
  unfold countDown
  split
  · next h => subst h; rfl
  · next h =>
    have : t.toNat ≠ 0 := fun h0 => h (BitVec.eq_of_toNat_eq h0)
    have := t.isLt
    rw [BitVec.toNat_sub]; simp; omega

end Sys2Proof.Machine
end

