-- ==== Sys2Proof/Laws/PerInstr.lean ====
section
/-! SUPPORT. The family `Row`: the word of every instruction selects its own row of the opcode map (30_encoding.md R94) and
its operands are in range (R92). One lemma per constructor. -/

namespace Sys2Proof.Laws.Row

/-- The encoded word has exactly the constant bits of the instruction's row, and the operands are in range. -/
def Statement (i : Instr) : Prop := encode i &&& i.row.mask = i.row.value ∧ WellFormed.instrOk i = true

/-- The constant bits of a word in format `NNN`. -/
theorem mask_encNNN (o : BitVec 4) (a : Imm12) : encNNN o a &&& 0xF000#16 = o ++ 0#12 := by
  apply BitVec.eq_of_getLsbD_eq
  intro i hi
  simp only [encNNN, BitVec.getLsbD_and, BitVec.getLsbD_append]
  interval_cases i <;> simp

/-- The constant bits of a word in format `XNN`. -/
theorem mask_encXNN (o : BitVec 4) (x : Reg) (b : Byte) : encXNN o x b &&& 0xF000#16 = o ++ 0#12 := by
  apply BitVec.eq_of_getLsbD_eq
  intro i hi
  simp only [encXNN, BitVec.getLsbD_and, BitVec.getLsbD_append]
  interval_cases i <;> simp

/-- The constant bits of a word in format `X`. -/
theorem mask_encX (o : BitVec 4) (x : Reg) (b : Byte) : encXNN o x b &&& 0xF0FF#16 = o ++ 0#4 ++ b := by
  apply BitVec.eq_of_getLsbD_eq
  intro i hi
  simp only [encXNN, BitVec.getLsbD_and, BitVec.getLsbD_append]
  interval_cases i <;> simp

/-- The constant bits of a word in format `XYN`. -/
theorem mask_encXYN (o : BitVec 4) (x y n : Reg) : encXYN o x y n &&& 0xF000#16 = o ++ 0#12 := by
  apply BitVec.eq_of_getLsbD_eq
  intro i hi
  simp only [encXYN, BitVec.getLsbD_and, BitVec.getLsbD_append]
  interval_cases i <;> simp

/-- The constant bits of a word in format `XY`. -/
theorem mask_encXY (o : BitVec 4) (x y n : Reg) : encXYN o x y n &&& 0xF00F#16 = o ++ 0#8 ++ (BitVec.ofFin n : BitVec 4) := by
  apply BitVec.eq_of_getLsbD_eq
  intro i hi
  simp only [encXYN, BitVec.getLsbD_and, BitVec.getLsbD_append]
  interval_cases i <;> simp

theorem cls : Statement (.cls) := ⟨rfl, WellFormed.instrOk_all _⟩
theorem ret : Statement (.ret) := ⟨rfl, WellFormed.instrOk_all _⟩
theorem jp (nnn : Imm12) : Statement (.jp nnn) := ⟨mask_encNNN _ _, WellFormed.instrOk_all _⟩
theorem call (nnn : Imm12) : Statement (.call nnn) := ⟨mask_encNNN _ _, WellFormed.instrOk_all _⟩
theorem sei (x : Reg) (nn : Byte) : Statement (.sei x nn) := ⟨mask_encXNN _ _ _, WellFormed.instrOk_all _⟩
theorem snei (x : Reg) (nn : Byte) : Statement (.snei x nn) := ⟨mask_encXNN _ _ _, WellFormed.instrOk_all _⟩
theorem ser (x : Reg) (y : Reg) : Statement (.ser x y) := ⟨mask_encXY _ _ _ _, WellFormed.instrOk_all _⟩
theorem ldi (x : Reg) (nn : Byte) : Statement (.ldi x nn) := ⟨mask_encXNN _ _ _, WellFormed.instrOk_all _⟩
theorem addi (x : Reg) (nn : Byte) : Statement (.addi x nn) := ⟨mask_encXNN _ _ _, WellFormed.instrOk_all _⟩
theorem mov (x : Reg) (y : Reg) : Statement (.mov x y) := ⟨mask_encXY _ _ _ _, WellFormed.instrOk_all _⟩
theorem or (x : Reg) (y : Reg) : Statement (.or x y) := ⟨mask_encXY _ _ _ _, WellFormed.instrOk_all _⟩
theorem and (x : Reg) (y : Reg) : Statement (.and x y) := ⟨mask_encXY _ _ _ _, WellFormed.instrOk_all _⟩
theorem xor (x : Reg) (y : Reg) : Statement (.xor x y) := ⟨mask_encXY _ _ _ _, WellFormed.instrOk_all _⟩
theorem add (x : Reg) (y : Reg) : Statement (.add x y) := ⟨mask_encXY _ _ _ _, WellFormed.instrOk_all _⟩
theorem sub (x : Reg) (y : Reg) : Statement (.sub x y) := ⟨mask_encXY _ _ _ _, WellFormed.instrOk_all _⟩
theorem shr (x : Reg) (y : Reg) : Statement (.shr x y) := ⟨mask_encXY _ _ _ _, WellFormed.instrOk_all _⟩
theorem subn (x : Reg) (y : Reg) : Statement (.subn x y) := ⟨mask_encXY _ _ _ _, WellFormed.instrOk_all _⟩
theorem shl (x : Reg) (y : Reg) : Statement (.shl x y) := ⟨mask_encXY _ _ _ _, WellFormed.instrOk_all _⟩
theorem sner (x : Reg) (y : Reg) : Statement (.sner x y) := ⟨mask_encXY _ _ _ _, WellFormed.instrOk_all _⟩
theorem lda (nnn : Imm12) : Statement (.lda nnn) := ⟨mask_encNNN _ _, WellFormed.instrOk_all _⟩
theorem jpv (nnn : Imm12) : Statement (.jpv nnn) := ⟨mask_encNNN _ _, WellFormed.instrOk_all _⟩
theorem rnd (x : Reg) (nn : Byte) : Statement (.rnd x nn) := ⟨mask_encXNN _ _ _, WellFormed.instrOk_all _⟩
theorem drw (x : Reg) (y : Reg) (n : Reg) : Statement (.drw x y n) := ⟨mask_encXYN _ _ _ _, WellFormed.instrOk_all _⟩
theorem skp (x : Reg) : Statement (.skp x) := ⟨mask_encX _ _ _, WellFormed.instrOk_all _⟩
theorem sknp (x : Reg) : Statement (.sknp x) := ⟨mask_encX _ _ _, WellFormed.instrOk_all _⟩
theorem lddt (x : Reg) : Statement (.lddt x) := ⟨mask_encX _ _ _, WellFormed.instrOk_all _⟩
theorem wkey (x : Reg) : Statement (.wkey x) := ⟨mask_encX _ _ _, WellFormed.instrOk_all _⟩
theorem stdt (x : Reg) : Statement (.stdt x) := ⟨mask_encX _ _ _, WellFormed.instrOk_all _⟩
theorem stst (x : Reg) : Statement (.stst x) := ⟨mask_encX _ _ _, WellFormed.instrOk_all _⟩
theorem adda (x : Reg) : Statement (.adda x) := ⟨mask_encX _ _ _, WellFormed.instrOk_all _⟩
theorem bcd (x : Reg) : Statement (.bcd x) := ⟨mask_encX _ _ _, WellFormed.instrOk_all _⟩
theorem stm (x : Reg) : Statement (.stm x) := ⟨mask_encX _ _ _, WellFormed.instrOk_all _⟩
theorem ldm (x : Reg) : Statement (.ldm x) := ⟨mask_encX _ _ _, WellFormed.instrOk_all _⟩

end Sys2Proof.Laws.Row
end

