-- ==== Sys2Proof/Laws/Step.lean ====
section
/-! SUPPORT. What a step can be: one of four cases (R120, R254). -/

namespace Sys2Proof.Machine

/-- The four ways of a step: nothing while faulted, the fetch fault, the instruction, the step over an unknown word. -/
theorem step_cases {s t : State} (h : step s = .next t) :
    (s.run = .faulted ∧ t = s) ∨
    (s.run ≠ .faulted ∧ 0xFFE < s.pc.toNat ∧ t = s.raise .addressFault) ∨
    (s.run ≠ .faulted ∧ s.pc.toNat ≤ 0xFFE ∧ ∃ i, decode s.fetchWord = .ok i ∧ exec i s = .next t) ∨
    (s.run ≠ .faulted ∧ s.pc.toNat ≤ 0xFFE ∧ (∃ e, decode s.fetchWord = .error e) ∧ t = s.advance) := by
  unfold step at h
  split at h
  · next hr => exact .inl ⟨hr, (Host.Outcome.next.inj h).symm⟩
  · next hr =>
    split at h
    · next hp => exact .inr (.inl ⟨hr, hp, (Host.Outcome.next.inj h).symm⟩)
    · next hp =>
      split at h
      · next i hi => exact .inr (.inr (.inl ⟨hr, by omega, i, hi, h⟩))
      · next e he => exact .inr (.inr (.inr ⟨hr, by omega, ⟨e, he⟩, (Host.Outcome.next.inj h).symm⟩))

end Sys2Proof.Machine
end

