-- ==== Sys2Proof/Machine/Listing.lean ====
section
/-! DEFINITION. The spec's own assembler text (30_encoding.md R100) and the two directives of its listings (R101). Labels are
left out: a listing writes the address itself. Nothing of the machine depends on this file. -/

namespace Sys2Proof.Machine

/-- One hexadecimal digit. -/
def hexDigit (d : Nat) : String := (["0", "1", "2", "3", "4", "5", "6", "7", "8", "9", "A", "B", "C", "D", "E", "F"]).getD d ""

/-- The name of a register, `V0` to `VF` (R20). -/
def regName (x : Reg) : String := "V" ++ hexDigit x.val

/-- An immediate byte, with `0x`. -/
def byteText (b : Byte) : String := "0x" ++ hexDigit (b.toNat / 16) ++ hexDigit (b.toNat % 16)

/-- An address `nnn`, with `0x`. -/
def addrText (a : Imm12) : String :=
  "0x" ++ hexDigit (a.toNat / 256) ++ hexDigit (a.toNat / 16 % 16) ++ hexDigit (a.toNat % 16)

/-- A row count 0 to 15, in decimal. -/
def rowsText (n : Reg) : String := if n.val < 10 then hexDigit n.val else "1" ++ hexDigit (n.val - 10)

/-- The operands of an instruction as R100 writes them; SHR and SHL write only `Vx`. -/
def operandTexts : Instr → List String
  | .cls | .ret => []
  | .jp a | .call a | .lda a | .jpv a => [addrText a]
  | .sei x b | .snei x b | .ldi x b | .addi x b | .rnd x b => [regName x, byteText b]
  | .ser x y | .sner x y | .mov x y | .or x y | .and x y | .xor x y => [regName x, regName y]
  | .add x y | .sub x y | .subn x y => [regName x, regName y]
  | .shr x _ | .shl x _ => [regName x]
  | .drw x y n => [regName x, regName y, rowsText n]
  | .skp x | .sknp x | .lddt x | .wkey x | .stdt x | .stst x => [regName x]
  | .adda x | .bcd x | .stm x | .ldm x => [regName x]

/-- An instruction in the spec's assembler text (R100). -/
def instrText (i : Instr) : String :=
  match operandTexts i with
  | [] => i.row.mnemonic
  | ts => i.row.mnemonic ++ " " ++ ", ".intercalate ts

/-- One item of a listing (R101). -/
inductive Item where
  | instr (i : Instr)
  /-- `DW w`: a word, big-endian. -/
  | dw (w : Word)
  /-- `DB b, …`: bytes. -/
  | db (bs : List Byte)
deriving DecidableEq, Repr

/-- The bytes that an item places (R65, R101). -/
def itemBytes : Item → List Byte
  | .instr i => encodeBytes i
  | .dw w => bytesOfWord w
  | .db bs => bs

/-- The program image of a listing, item after item (R101, R268). -/
def image (items : List Item) : List Byte := items.flatMap itemBytes

end Sys2Proof.Machine
end

