-- ==== Sys2Proof/Tests/Slice0.lean ====
section
/-! SUPPORT. The model's own tests. The expected results are those of 95_test_vectors.md (its vector's name stands before each
test) or are worked out by hand from the rule named. Then a witness for the hypotheses of every statement that has any. -/

namespace Sys2Proof.Tests

open Sys2Proof.Machine

/-- The state after one step of the word `w` placed at `PC`, as the vectors of 95_test_vectors.md run it. -/
def after (s : State) (w : Nat) : Option State := nextOf (step (s.withFetchWord 16 w))

/-- The reset state with two registers set. -/
def two (x : Reg) (a : Byte) (y : Reg) (b : Byte) : State := (State.reset.setV x a).setV y b

/-- The reset state with a register and `I` set. -/
def withI (i : Word) (x : Reg) (a : Byte) : State := (State.reset.setI i).setV x a

/-- The reset state with keys down. -/
def keysDown (ks : List Reg) : State := ks.foldl (fun s k => s.keyWrite k true) State.reset

/-- A register, VF and `PC`. -/
def vfPc (x : Reg) (t : State) : Byte × Byte × Word := (t.getV x, t.getV vF, t.pc)

/-! ### WellFormed: each check refuses an ill-formed term and takes the largest good one (R92, R302) -/

theorem test_regOk : WellFormed.regOk 16 = false ∧ WellFormed.regOk 15 = true := by decide
theorem test_rowsOk : WellFormed.rowsOk 16 = false ∧ WellFormed.rowsOk 15 = true := by decide
theorem test_immOk : WellFormed.immOk 256 = false ∧ WellFormed.immOk 255 = true := by decide
theorem test_addrOk : WellFormed.addrOk 4096 = false ∧ WellFormed.addrOk 4095 = true := by decide
theorem test_imageOk : WellFormed.imageOk (List.replicate 3585 0xAB) = false ∧
    WellFormed.imageOk (List.replicate 3584 0xAB) = true := by
  simp only [WellFormed.imageOk, List.length_replicate]
  decide

/-! ### Decoding: a word written bit by bit from the formats of R91 and the patterns of R94, for every instruction -/

theorem test_decode_fixed :
    decode 0b0000_0000_1110_0000 = .ok .cls ∧ decode 0b0000_0000_1110_1110 = .ok .ret := by decide

theorem test_decode_nnn :
    decode 0b0001_0010_0011_0100 = .ok (.jp 0b0010_0011_0100) ∧ decode 0b0010_0010_0000_1100 = .ok (.call 0b0010_0000_1100) ∧
    decode 0b1010_0011_0000_0001 = .ok (.lda 0b0011_0000_0001) ∧ decode 0b1011_1111_1111_1110 = .ok (.jpv 0b1111_1111_1110) := by
  decide

theorem test_decode_xnn :
    decode 0b0011_0001_1000_0010 = .ok (.sei 1 0b1000_0010) ∧ decode 0b0100_1010_0000_0101 = .ok (.snei 10 0b0000_0101) ∧
    decode 0b0110_1010_0111_1111 = .ok (.ldi 10 0b0111_1111) ∧ decode 0b0111_0001_1111_1110 = .ok (.addi 1 0b1111_1110) ∧
    decode 0b1100_0011_0000_1111 = .ok (.rnd 3 0b0000_1111) := by decide

theorem test_decode_xy :
    decode 0b0101_0001_0010_0000 = .ok (.ser 1 2) ∧ decode 0b1001_0001_0010_0000 = .ok (.sner 1 2) ∧
    decode 0b1000_0001_0010_0000 = .ok (.mov 1 2) ∧ decode 0b1000_0001_0010_0001 = .ok (.or 1 2) ∧
    decode 0b1000_0001_0010_0010 = .ok (.and 1 2) ∧ decode 0b1000_0001_0010_0011 = .ok (.xor 1 2) ∧
    decode 0b1000_0001_0010_0100 = .ok (.add 1 2) ∧ decode 0b1000_0001_0010_0101 = .ok (.sub 1 2) ∧
    decode 0b1000_0001_0010_0110 = .ok (.shr 1 2) ∧ decode 0b1000_0001_0010_0111 = .ok (.subn 1 2) ∧
    decode 0b1000_0001_0010_1110 = .ok (.shl 1 2) := by decide

theorem test_decode_xyn : decode 0b1101_0001_0010_1111 = .ok (.drw 1 2 15) := by decide

theorem test_decode_x :
    decode 0b1110_0011_1001_1110 = .ok (.skp 3) ∧ decode 0b1110_0011_1010_0001 = .ok (.sknp 3) ∧
    decode 0b1111_0011_0000_0111 = .ok (.lddt 3) ∧ decode 0b1111_0011_0000_1010 = .ok (.wkey 3) ∧
    decode 0b1111_0011_0001_0101 = .ok (.stdt 3) ∧ decode 0b1111_0011_0001_1000 = .ok (.stst 3) ∧
    decode 0b1111_0011_0001_1110 = .ok (.adda 3) ∧ decode 0b1111_0011_0011_0011 = .ok (.bcd 3) ∧
    decode 0b1111_0011_0101_0101 = .ok (.stm 3) ∧ decode 0b1111_0011_0110_0101 = .ok (.ldm 3) := by decide

/-- Q1 to Q11: words that match nothing, by name. -/
theorem test_decode_unknown :
    [0x0000, 0x00E1, 0x01E0, 0x5121, 0x9001, 0x8008, 0x800F, 0xE09F, 0xF029, 0xF000, 0xFFFF].map decode =
      [0x0000, 0x00E1, 0x01E0, 0x5121, 0x9001, 0x8008, 0x800F, 0xE09F, 0xF029, 0xF000, 0xFFFF].map
        (fun w => .error (.unknownOpcode w)) := by decide

theorem test_decodeBytes_truncated : decodeBytes [0x60] = .error .truncated := by decide

/-- Encoding of `DRW V1, V2, 15`, high byte first (R65). -/
theorem test_encodeBytes : encodeBytes (.drw 1 2 15) = [0xD1, 0x2F] := by decide

theorem test_decodeTableWord : decodeTableWord 16 0xD12F = some (.drw 1 2 15) ∧ decodeTableWord 16 0x5121 = none := by decide

/-- R101: the image of a listing of program P4's shape. -/
theorem test_listing : image [.instr (.lda 0x20A), .dw 0x0000, .db [0xC0, 0x80]] = [0xA2, 0x0A, 0x00, 0x00, 0xC0, 0x80] ∧
    instrText (.drw 1 10 15) = "DRW V1, VA, 15" ∧ instrText (.shr 3 7) = "SHR V3" := by decide

/-! ### The step, the unknown word, the fetch (40_step_cycle.md) -/

/-- Q9. -/
theorem test_unknown : (after (withI 0x123 0 0x0A) 0xF029).map (fun t => (t.pc, t.i, t.run)) =
    some (0x202, 0x123, .running) := by decide

/-- Q13: the fetch fault leaves `PC`. -/
theorem test_fetch_fault : (nextOf (step { State.reset with pc := 0xFFF })).map (fun t => (t.pc, t.runCode, t.faultCode)) =
    some (0xFFF, 2, 3) := by decide

/-- Q15: an odd `PC`. -/
theorem test_odd_pc : (after { State.reset with pc := 0x201 } 0x6122).map (fun t => (t.getV 1, t.pc)) =
    some (0x22, 0x203) := by decide

/-! ### Control flow (41_control_flow.md) -/

/-- B5, B6. -/
theorem test_ret : (after { State.reset with sp := 1, stack := State.reset.stack.set 0 0xABC } 0x00EE).map
    (fun t => (t.pc, t.sp, t.stack[0])) = some (0xABC, 0, 0xABC) := by decide
theorem test_ret_empty : (after State.reset 0x00EE).map (fun t => (t.pc, t.runCode, t.faultCode)) =
    some (0x200, 2, 2) := by decide

/-- B1. -/
theorem test_jp : (after State.reset 0x1ABC).map (·.pc) = some 0xABC := by decide

/-- B3, and the seventeenth call of B4. -/
theorem test_call : (after State.reset 0x2ABC).map (fun t => (t.stack[0], t.sp, t.pc)) = some (0x202, 1, 0xABC) := by decide
theorem test_call_full : (after { State.reset with sp := 16 } 0x2200).map (fun t => (t.pc, t.sp, t.faultCode)) =
    some (0x200, 16, 1) := by decide

/-- B7 to B10. -/
theorem test_sei : ([0x42, 0x41].map fun b => (after (State.reset.setV 0 b) 0x3042).map (·.pc)) =
    [some 0x204, some 0x202] := by decide
theorem test_snei : ([0x42, 0x41].map fun b => (after (State.reset.setV 0 b) 0x4042).map (·.pc)) =
    [some 0x202, some 0x204] := by decide

/-- B11, B12, B14, B15. -/
theorem test_ser : ([0x07, 0x08].map fun b => (after (two 1 0x07 2 b) 0x5120).map (·.pc)) =
    [some 0x204, some 0x202] := by decide
theorem test_sner : ([0x07, 0x08].map fun b => (after (two 1 0x07 2 b) 0x9120).map (·.pc)) =
    [some 0x202, some 0x204] := by decide

/-- B18. -/
theorem test_jpv : (after (State.reset.setV 0 0xFF) 0xBFFF).map (·.pc) = some 0x10FE := by decide

/-! ### ALU (42_alu.md) -/

/-- A1, A4. -/
theorem test_ldi : (after State.reset 0x6A7F).map (vfPc 10) = some (0x7F, 0, 0x202) := by decide
theorem test_addi : (after (two 0 0xFF 15 0x07) 0x70FF).map (vfPc 0) = some (0xFE, 0x07, 0x202) := by decide

/-- A6, A8, A10, A11, VF as it was. -/
theorem test_mov : (after ((two 1 0x01 2 0x99).setV 15 0x05) 0x8120).map (vfPc 1) = some (0x99, 0x05, 0x202) := by decide
theorem test_or : (after ((two 1 0xF0 2 0x0F).setV 15 0x09) 0x8121).map (vfPc 1) = some (0xFF, 0x09, 0x202) := by decide
theorem test_and : (after (two 1 0xF0 2 0x3C) 0x8122).map (vfPc 1) = some (0x30, 0, 0x202) := by decide
theorem test_xor : (after (two 1 0xFF 2 0x0F) 0x8123).map (vfPc 1) = some (0xF0, 0, 0x202) := by decide

/-- S5, A16. -/
theorem test_add : (after (two 0 0xFA 1 0x0A) 0x8014).map (vfPc 0) = some (0x04, 1, 0x202) := by decide
theorem test_add_vf : (after (two 15 0xC8 1 0x64) 0x8F14).map (vfPc 1) = some (0x64, 0x2C, 0x202) := by decide

/-- S6, A25. -/
theorem test_sub : (after (two 0 0x05 1 0x0A) 0x8015).map (vfPc 0) = some (0xFB, 0, 0x202) := by decide
theorem test_sub_vf : (after (two 0 0x0A 15 0x03) 0x80F5).map (vfPc 0) = some (0x09, 1, 0x202) := by decide

/-- A29, A30. -/
theorem test_shr : (after (two 3 0x04 7 0xFF) 0x8376).map (vfPc 3) = some (0x02, 0, 0x202) := by decide
theorem test_shr_vf : (after (State.reset.setV 15 0xFF) 0x8F06).map (·.getV vF) = some 0 := by decide

/-- A32, A33. -/
theorem test_subn : (after (two 1 0x0A 2 0x03) 0x8127).map (vfPc 1) = some (0xF9, 0, 0x202) := by decide
theorem test_subn_vf : (after (two 15 0x03 1 0x0A) 0x8F17).map (·.getV vF) = some 0x09 := by decide

/-- A38, A40. -/
theorem test_shl : (after (State.reset.setV 4 0x81) 0x840E).map (vfPc 4) = some (0x02, 1, 0x202) := by decide
theorem test_shl_vf : (after (State.reset.setV 15 0x80) 0x8F0E).map (·.getV vF) = some 2 := by decide

/-- A42: the byte the driver names. -/
theorem test_rnd : (after { State.reset with rndIn := some 0xA7 } 0xC30F).map (fun t => (t.getV 3, t.rndIn, t.draws)) =
    some (0x07, none, 1) := by decide

/-! ### Index and memory (43_index_memory.md) -/

/-- M1, M4, M5. -/
theorem test_lda : (after State.reset 0xA123).map (·.i) = some 0x123 := by decide
theorem test_adda : (after (withI 0xFFF 0 1) 0xF01E).map (fun t => (t.i, t.getV vF)) = some (0, 1) := by decide
theorem test_adda_vf : (after (withI 0xFFF 15 0xFF) 0xFF1E).map (fun t => (t.i, t.getV vF)) = some (0xFE, 1) := by decide

/-- M9, M10. -/
theorem test_bcd : (after (withI 0xFFD 0 0x6B) 0xF033).map (fun t => (t.mem.readBytes 0xFFD 3, t.pc)) =
    some ([1, 0, 7], 0x202) := by decide
theorem test_bcd_fault : (after (withI 0xFFE 0 0x6B) 0xF033).map (fun t => (t.readMem 0xFFE, t.pc, t.faultCode)) =
    some (0, 0x200, 3) := by decide

/-- M13, M12. -/
theorem test_stm : (after ((withI 0xFF0 0 1).setV 15 0xAA) 0xFF55).map
    (fun t => (t.readMem 0xFF0, t.readMem 0xFF1, t.readMem 0xFFF, t.i)) = some (1, 0, 0xAA, 0xFF0) := by decide
theorem test_stm_fault : (after (withI 0xFFD 0 1) 0xF355).map (fun t => (t.readMem 0xFFD, t.pc, t.faultCode)) =
    some (0, 0x200, 3) := by decide

/-- M15, M17. -/
theorem test_ldm : (after ((withI 0x300 3 0x77).storeBytes 0x300 [1, 2, 3, 4]) 0xF265).map
    (fun t => ([0, 1, 2, 3].map t.getV, t.i)) = some ([1, 2, 3, 0x77], 0x300) := by decide
theorem test_ldm_fault : (after (withI 0xFFF 0 5) 0xF165).map (fun t => (t.getV 0, t.faultCode)) = some (5, 3) := by decide

/-! ### Display (44_display.md) -/

/-- X1. -/
theorem test_cls : (after { State.reset with dirty := false, fb := State.reset.fb.flip 3 4 } 0x00E0).map
    (fun t => (t.pixel 3 4, t.dirty, t.pc)) = some (false, true, 0x202) := by decide

/-- The example of R211: the sprite C0 80 at column 62, row 31, wraps over both edges. -/
theorem test_drw_wraps : (after (((two 0 62 1 31).setI 0x20C).storeBytes 0x20C [0xC0, 0x80]) 0xD012).map
    (fun t => (t.pixel 31 62, t.pixel 31 63, t.pixel 0 62, t.pixel 0 63, t.getV vF)) =
    some (true, true, true, false, 0) := by decide

/-- A hit: one set pixel under one set bit (R211), and X4. -/
theorem test_drw_hit : (after (((State.reset.setI 0x300).storeBytes 0x300 [0x80]).setDisplay (Display.clear.flip 0 0)) 0xD001).map
    (fun t => (t.pixel 0 0, t.getV vF)) = some (false, 1) := by decide
theorem test_drw_fault : (after (withI 0xFFF 15 5) 0xD012).map (fun t => (t.getV vF, t.pc, t.faultCode)) =
    some (5, 0x200, 3) := by decide

/-! ### Keys, timers, events (45_keys_timers.md, 60_exceptions.md, 70_reset_and_hazards.md) -/

/-- K5, K6. -/
theorem test_skp : (after ((keysDown [15]).setV 1 15) 0xE19E).map (·.pc) = some 0x204 := by decide
theorem test_skp_fault : (after (State.reset.setV 0 16) 0xE09E).map (fun t => (t.pc, t.faultCode)) = some (0x200, 4) := by decide

/-- K3, K7. -/
theorem test_sknp : (after ((keysDown [5]).setV 0 5) 0xE0A1).map (·.pc) = some 0x202 := by decide
theorem test_sknp_fault : (after (State.reset.setV 0 0xFF) 0xE0A1).map (·.faultCode) = some 4 := by decide

/-- K8, K9. -/
theorem test_wkey_waits : (after (State.reset.setV 0 0x33) 0xF00A).map (fun t => (t.getV 0, t.pc, t.runCode)) =
    some (0x33, 0x200, 1) := by decide
theorem test_wkey : (after (keysDown [9, 7]) 0xF00A).map (fun t => (t.getV 0, t.pc, t.runCode)) =
    some (7, 0x202, 0) := by decide

/-- K11, K12, K13. -/
theorem test_lddt : (after { State.reset with dt := 0x2A } 0xF007).map (fun t => (t.getV 0, t.dt)) = some (0x2A, 0x2A) := by decide
theorem test_stdt : (after (State.reset.setV 0 0x2A) 0xF015).map (fun t => (t.dt, t.st)) = some (0x2A, 0) := by decide
theorem test_stst : (after (State.reset.setV 0 1) 0xF018).map (fun t => (t.dt, t.st)) = some (0, 1) := by decide

/-- T1, T3. -/
theorem test_tick : let r := State.tick { State.reset with dt := 2, st := 1 }
    (r.1.dt, r.1.st, r.2) = (1, 0, true) := by decide
theorem test_tick_zero : let r := State.reset.tick
    (r.1.dt, r.1.st, r.2) = (0, 0, false) := by decide

/-- R265, R267, R266: the exports read without effect, and the dirty flag is cleared. -/
theorem test_exports : State.reset.exportStatus = (0, 0) ∧ State.reset.exportFrame.2 = true ∧
    State.reset.dirtyClear.exportFrame.2 = false := by decide

/-- Q9 and S10 as events: the step's result. -/
theorem test_results : stepResult (State.reset.withFetchWord 16 0xF029) (State.reset.withFetchWord 16 0xF029).advance =
      .unknownOpcode 0xF029 ∧
    stepResult (State.reset.withFetchWord 16 0xF00A) (State.reset.withFetchWord 16 0xF00A).await = .waiting := by decide

/-- S2: the first step after `LOAD(6A 7F)`. -/
theorem test_load_then_step : (nextOf (step (State.reset.load [0x6A, 0x7F]).1)).map (vfPc 10) = some (0x7F, 0, 0x202) := by decide

/-- Z1, S1: the reset memory on both sides of the font's end, by the name of the font. -/
theorem test_reset_memory : State.reset.readMem 79 = Config.font.getD 79 0 ∧ State.reset.readMem 80 = 0 ∧
    State.reset.readMem 0xFFF = 0 ∧ Config.font.length = 80 := by decide

/-- R303: no event but `RESET` and a `LOAD` that succeeds has a meaning after power-on. -/
theorem test_first_event : firstEvent .tick = none ∧ (firstEvent .reset).isSome = true ∧
    (firstEvent (.load [0x00, 0xE0])).isSome = true := by decide

/-! ### Witnesses: for every statement with hypotheses, states and operands that meet them all -/

/-- A clear core with the word `w` at `pc`. -/
def placed (pc : Word) (w : Nat) : State := State.withFetchWord { State.reset with pc := pc } 16 w

theorem witness_EncodeOfDecode : decode 0x8126 = .ok (.shr 1 2) ∧ decode 0xFF65 = .ok (.ldm 15) := by decide

theorem witness_DecodeFollowsOpcodeMap : (Instr.add 0 1).row ∈ opcodeMap ∧
    (0x8014 : Word) &&& (Instr.add 0 1).row.mask = (Instr.add 0 1).row.value ∧ decode 0x8014 = .ok (.add 0 1) ∧
    decode 0x800F = .error (.unknownOpcode 0x800F) := by decide

theorem witness_StepRunsDecoded : (placed 0xFFE 0x6001).run ≠ .faulted ∧ (placed 0xFFE 0x6001).pc.toNat ≤ 0xFFE ∧
    decode ((placed 0xFFE 0x6001).readMem 0xFFE ++ (placed 0xFFE 0x6001).readMem 0xFFF) = .ok (.ldi 0 1) ∧
    decode ((placed 0x201 0x6122).readMem 0x201 ++ (placed 0x201 0x6122).readMem 0x202) = .ok (.ldi 1 0x22) := by decide

theorem witness_StepOverUnknownWord : (placed 0xFFE 0x5121).run ≠ .faulted ∧ (placed 0xFFE 0x5121).pc.toNat ≤ 0xFFE ∧
    (0x5121 : Word) = (placed 0xFFE 0x5121).readMem 0xFFE ++ (placed 0xFFE 0x5121).readMem 0xFFF ∧
    (∀ i, decode 0x5121 ≠ .ok i) := by
  refine ⟨by decide, by decide, by decide, fun i h => ?_⟩
  rw [show decode 0x5121 = .error (.unknownOpcode 0x5121) by decide] at h
  cases h

theorem witness_StepWhileFaulted : (State.reset.raise .stackOverflow).run = .faulted := rfl

theorem witness_FetchPastTopFaults : State.run { State.reset with pc := 0xFFF } ≠ .faulted ∧
    0xFFE < (0xFFF : Word).toNat := by decide

/-- The four causes of the table. -/
theorem witness_FaultsAreTheTable :
    (let s : State := { State.reset with sp := 16 }
     s.run ≠ .faulted ∧ exec (.call 0) s = .next (s.raise .stackOverflow) ∧ (s.raise .stackOverflow).run = .faulted) ∧
    exec .ret State.reset = .next (State.reset.raise .stackUnderflow) ∧
    exec (.drw 0 0 1) (State.reset.setI 0x1000) = .next ((State.reset.setI 0x1000).raise .addressFault) ∧
    exec (.bcd 0) (State.reset.setI 0xFFE) = .next ((State.reset.setI 0xFFE).raise .addressFault) ∧
    exec (.ldm 1) (State.reset.setI 0xFFF) = .next ((State.reset.setI 0xFFF).raise .addressFault) ∧
    exec (.skp 0) (State.reset.setV 0 16) = .next ((State.reset.setV 0 16).raise .keyIndexFault) :=
  ⟨⟨by decide, rfl, rfl⟩, rfl, rfl, rfl, rfl, rfl⟩

theorem witness_CallPushesReturn : State.reset.sp.val < 16 ∧ (State.sp { State.reset with sp := 15 }).val < 16 := by decide

theorem witness_RetPopsReturn : 0 < (State.sp { State.reset with sp := 1 }).val ∧
    0 < (State.sp { State.reset with sp := 16 }).val := by decide

theorem witness_StackFaults : (State.sp { State.reset with sp := 16 }).val = 16 ∧ State.reset.sp.val = 0 := by decide

theorem witness_CallThenRetComesBack : let s : State := { State.reset with sp := 15 }
    s.sp.val < 16 ∧ ∃ t, exec (.call 0x300) s = .next t := ⟨by decide, _, rfl⟩

theorem witness_SelfJumpIsFinal : (placed 0x200 0x1200).run = .running ∧ (placed 0x200 0x1200).pc.toNat ≤ 0xFFE ∧
    (placed 0x200 0x1200).pc.toNat = (0x200 : Imm12).toNat ∧ (placed 0x200 0x1200).fetchWord = encode (.jp 0x200) ∧
    (placed 0xFFE 0x1FFE).fetchWord = encode (.jp 0xFFE) := by decide

/-- For SubWritesDifferenceAndNotBorrow and, with the operands exchanged, SubnWritesDifferenceAndNotBorrow: every case of where
VF stands among the operands, with equal and unequal values. -/
theorem witness_SubAndSubn :
    (1 : Nat) = (if ((two 0 7 1 7).getV 0).toNat ≥ ((two 0 7 1 7).getV 1).toNat then 1 else 0) ∧
    (0 : Nat) = (if ((two 0 3 15 10).getV 0).toNat ≥ ((two 0 3 15 10).getV 15).toNat then 1 else 0) ∧
    (1 : Nat) = (if ((two 15 10 1 3).getV 15).toNat ≥ ((two 15 10 1 3).getV 1).toNat then 1 else 0) ∧
    (1 : Nat) = (if (State.reset.getV 15).toNat ≥ (State.reset.getV 15).toNat then 1 else 0) ∧
    (0 : Reg) ≠ vF ∧ (1 : Reg) ≠ vF := by decide

/-- For AddWritesSumAndCarry and ShiftsMoveABitIntoVf: both sides of the split on `x`. -/
theorem witness_AddAndShifts : (14 : Reg) ≠ vF ∧ (15 : Reg) = vF := by decide

theorem witness_RndMasksTheFreeByte : State.rndIn { State.reset with rndIn := some 0xA7 } = some 0xA7 ∧
    State.reset.rndIn = none := by decide

theorem witness_BcdStoresDigits : (State.reset.setI 0xFFD).mem.wf ∧ (State.reset.setI 0xFFD).i.toNat + 2 ≤ 0xFFF := by decide

/-- For StmStoresRegisters and LdmLoadsRegisters: all sixteen registers, ending at 0xFFF. -/
theorem witness_StmAndLdm : (State.reset.setI 0xFF0).mem.wf ∧ (State.reset.setI 0xFF0).i.toNat + (15 : Reg).val ≤ 0xFFF ∧
    (0 : Reg) ≤ 15 ∧ (14 : Reg) < 15 := by decide

theorem witness_DataRangePastTopFaults : (State.reset.setI 0xFFE).i.toNat ≥ 0xFFE ∧
    (State.reset.setI 0xFFF).i.toNat + (1 : Reg).val ≥ 0x1000 ∧
    ((2 : Reg).val > 0 ∧ (State.reset.setI 0xFFF).i.toNat + (2 : Reg).val ≥ 0x1001) := by decide

/-- A store of `61 22` over the word that follows. -/
theorem witness_StoredCodeIsFetched : let s := (two 0 0x61 1 0x22).setI 0x202
    s.mem.wf ∧ (1 : Reg) ≤ 1 ∧ s.i.toNat = s.pc.toNat + 2 ∧ s.i.toNat + (1 : Reg).val ≤ 0xFFF ∧
    (∃ t, exec (.stm 1) s = .next t) ∧ decode (s.getV 0 ++ s.getV 1) = .ok (.ldi 1 0x22) :=
  ⟨by decide, by decide, by decide, by decide, ⟨_, rfl⟩, by decide⟩

theorem witness_CanonicalMemoryIsItsContents : Memory.wf [(0x200, 0x61), (0xFFF, 1)] ∧
    ∀ a, Memory.read [(0x200, 0x61), (0xFFF, 1)] a = Memory.read [(0x200, 0x61), (0xFFF, 1)] a := by
  refine ⟨by decide, fun _ => rfl⟩

/-- No byte read, one byte at the very top, a covered pixel that is set and one that is not, and an uncovered one. -/
theorem witness_DrwXorsTheSprite : (0 : Reg).val = 0 ∧ (State.reset.setI 0xFFF).i.toNat + (1 : Reg).val - 1 ≤ 0xFFF ∧
    (let s := ((State.reset.setI 0x300).storeBytes 0x300 [0xC0]).setDisplay (Display.clear.flip 0 0)
     SpriteCovers s 0 0 1 0 0 ∧ s.pixel 0 0 = true ∧ SpriteCovers s 0 0 1 0 1 ∧ s.pixel 0 1 = false ∧
     ¬ SpriteCovers s 0 0 1 0 2) ∧
    (∀ r c, SpriteCovers State.reset 0 0 0 r c → State.reset.pixel r c = false) := by
  refine ⟨rfl, by decide, ⟨⟨0, by decide, 0, by decide, by decide, by decide, by decide⟩, by decide,
    ⟨0, by decide, 1, by decide, by decide, by decide, by decide⟩, by decide, ?_⟩, ?_⟩
  · rintro ⟨k, hk, j, hj, -, hc, hb⟩
    have hk0 : k = 0 := by simpa using hk
    have hj2 : j = 2 := by
      have h2 : (2 : Nat) = (0 + j) % 64 := hc
      omega
    subst hk0 hj2
    exact absurd hb (by decide)
  · rintro r c ⟨k, hk, -⟩
    exact absurd hk (by simp)

theorem witness_DrawTwiceRestoresDisplay : (0 : Reg) ≠ vF ∧ (1 : Reg) ≠ vF ∧
    (State.reset.setI 0xFF1).i.toNat + (15 : Reg).val - 1 ≤ 0xFFF := by decide

theorem witness_KeySkips : (((keysDown [15]).setV 1 15).getV 1).toNat = (15 : Reg).val ∧
    (State.reset.getV 0).toNat = (0 : Reg).val ∧ ((keysDown [15]).setV 1 15).pressed 15 = true ∧ State.reset.pressed 0 = false := by decide

theorem witness_KeyIndexAboveFifteenFaults : ((State.reset.setV 0 16).getV 0).toNat > 0xF := by decide

theorem witness_WkeyTakesLowestKey : (keysDown [9, 7]).pressed 7 = true ∧ (∀ j < (7 : Reg), (keysDown [9, 7]).pressed j = false) ∧
    (keysDown [15]).pressed 15 = true ∧ (∀ j < (15 : Reg), (keysDown [15]).pressed j = false) := by decide

theorem witness_WkeyWaitsForAKey : ∀ k, State.reset.pressed k = false := by decide

theorem witness_LoadPlacesOrRejects : (List.replicate 3584 (0xAB : Byte)).length ≤ 3584 ∧
    3584 < (List.replicate 3585 (0xAB : Byte)).length := by
  simp only [List.length_replicate]
  decide

theorem witness_FirstStepRunsTheImage : ([] : List Byte).length + 2 ≤ 3584 ∧
    (∃ t r, (State.reset.setV 3 9).event (.load [0x6A, 0x7F]) = .next (t, r)) ∧ decode (0x6A#8 ++ 0x7F#8) = .ok (.ldi 10 0x7F) :=
  ⟨by decide, ⟨_, _, rfl⟩, by decide⟩

/-- A running state at the edges of the invariant, no reset state: one call deep, `I` and `PC` at their largest. -/
def edge : State :=
  { (State.reset.setV 3 9).setI 0xFFF with pc := 0x10FE, sp := 1, stack := State.reset.stack.set 0 0x1000, mem := [(0x200, 0x61)] }

/-- A core that waits for a key. -/
def waiting : State := (placed 0x200 0xF30A).await

/-- A core that has faulted. -/
def stopped : State := (State.reset.setV 0 16).raise .keyIndexFault

theorem edge_return_address : edge.stack[0].toNat ≤ 0x1000 := by decide

theorem edge_inv : Inv edge where
  mem := by decide
  i := by decide
  pc := by decide
  stack := fun j _ hj => by
    have h0 : j = 0 := Nat.lt_one_iff.1 hj
    subst h0
    exact edge_return_address
  fault := by decide
  wait := fun h => absurd h (by decide)

theorem waiting_inv : Inv waiting where
  mem := by decide
  i := by decide
  pc := by decide
  stack := fun j _ hj => absurd hj (Nat.not_lt_zero j)
  fault := by decide
  wait := fun _ => ⟨by decide, 3, by decide⟩

theorem stopped_inv : Inv stopped where
  mem := by decide
  i := by decide
  pc := by decide
  stack := fun j _ hj => absurd hj (Nat.not_lt_zero j)
  fault := by decide
  wait := fun h => absurd h (by decide)

theorem witness_ReachableInvariantKept : (Inv edge ∧ ∃ t, step edge = .next t) ∧ (Inv waiting ∧ ∃ t, step waiting = .next t) ∧
    (Inv stopped ∧ ∃ t, step stopped = .next t) :=
  ⟨⟨edge_inv, _, rfl⟩, ⟨waiting_inv, _, rfl⟩, ⟨stopped_inv, _, rfl⟩⟩

theorem witness_InvariantKeptByEvents : (Inv waiting ∧ ∃ t r, waiting.event (.keyWrite 7 true) = .next (t, r)) ∧
    (∃ t r, stopped.event .reset = .next (t, r)) ∧ (∃ t, stopped.event (.load [0x00, 0xE0]) = .next (t, .loaded true)) :=
  ⟨⟨waiting_inv, _, _, rfl⟩, ⟨_, _, rfl⟩, ⟨_, rfl⟩⟩

theorem witness_FaultStaysUntilReset : stopped.run = .faulted ∧ (∃ t r, stopped.event .tick = .next (t, r)) ∧
    Event.tick ≠ .reset ∧ (∀ bytes, Event.tick = .load bytes → 3584 < bytes.length) :=
  ⟨rfl, ⟨_, _, rfl⟩, by decide, fun _ h => by cases h⟩

/-- Each part written by an instruction of its line. -/
theorem witness_WritersOfEachPart :
    (nextOf (exec (.lda 5) State.reset)).map (·.i) ≠ some State.reset.i ∧
    (nextOf (exec (.call 5) State.reset)).map (·.sp) ≠ some State.reset.sp ∧
    (nextOf (exec (.stdt 0) (State.reset.setV 0 5))).map (·.dt) ≠ some State.reset.dt ∧
    (nextOf (exec (.stst 0) (State.reset.setV 0 5))).map (·.st) ≠ some State.reset.st ∧
    (nextOf (exec (.stm 0) (withI 0x300 0 5))).map (·.mem) ≠ some State.reset.mem ∧
    (nextOf (exec .cls State.reset.dirtyClear)).map (·.dirty) ≠ some State.reset.dirtyClear.dirty := by decide

theorem witness_WritersOfVf : (nextOf (exec (.add 0 1) (two 0 0xFA 1 0x0A))).map (·.getV vF) ≠ some ((two 0 0xFA 1 0x0A).getV vF) ∧
    (nextOf (exec (.ldi vF 5) State.reset)).map (·.getV vF) ≠ some (State.reset.getV vF) := by decide

theorem witness_SoundTimerAndDirtyAreUnread : let s' : State := { State.reset with st := 5, dirty := false }
    s' ≠ State.reset ∧ hideOutputs State.reset = hideOutputs s' ∧ ∃ t, step State.reset = .next t :=
  ⟨by decide, rfl, _, rfl⟩

end Sys2Proof.Tests
end

section
/-! SUPPORT. The three ways an instruction ends, with what a completed one keeps of the invariant (R120, R250), and that every
instruction and every step has a next state. -/

namespace Sys2Proof.Machine

/-- The return addresses in use are at most 0x1000, as `Inv.stack` says (R24, R140). -/
def StackInRange (s : State) : Prop := ∀ (j : Nat) (h : j < 16), j < s.sp.val → s.stack[j].toNat ≤ 0x1000

/-- `u` is `s` with data written: `PC`, the stack and `FAULT` are as they were, and the memory's form and the range of `I`
are kept. -/
structure DataWrite (s u : State) : Prop where
  pc : u.pc = s.pc
  sp : u.sp = s.sp
  stack : u.stack = s.stack
  fault : u.fault = s.fault
  mem : s.mem.wf → u.mem.wf
  i : s.i.toNat ≤ 0xFFF → u.i.toNat ≤ 0xFFF

/-- An instruction fetched in `s` completed in `t` (R120): `RUN` is `Running`, no fault was taken, and the ranges of the
invariant are kept. -/
structure Completes (s t : State) : Prop where
  run : t.run = .running
  fault : t.fault = s.fault
  mem : s.mem.wf → t.mem.wf
  i : s.i.toNat ≤ 0xFFF → t.i.toNat ≤ 0xFFF
  pc : s.pc.toNat ≤ 0xFFE → StackInRange s → t.pc.toNat ≤ 0x10FE
  stack : s.pc.toNat ≤ 0xFFE → StackInRange s → StackInRange t

/-- How the instruction `i` ends in `s`: it completes, takes a terminal fault (R250), or is a WKEY that waits (R232). -/
inductive Ends (i : Instr) (s : State) : Answer → Prop where
  | completes {t : State} (h : Completes s t) : Ends i s (.next t)
  | faults (f : Fault) : Ends i s (.next (s.raise f))
  | waits {x : Reg} (h : i = .wkey x) : Ends i s (.next s.await)

namespace DataWrite

variable {s u : State}

/-- The registers, the timers, the display and the model's own fields may take any value. -/
theorem plain (s : State) {v : Vector Byte 16} {d e : Byte} {f : Display} {b : Bool} {r : Option Byte} {n : Nat} :
    DataWrite s { s with v := v, dt := d, st := e, fb := f, dirty := b, rndIn := r, draws := n } :=
  ⟨rfl, rfl, rfl, rfl, id, id⟩

theorem setI (h : DataWrite s u) {a : Word} (ha : a.toNat ≤ 0xFFF) : DataWrite s (u.setI a) :=
  ⟨h.pc, h.sp, h.stack, h.fault, h.mem, fun _ => ha⟩

theorem storeBytes (h : DataWrite s u) {a : Nat} {bs : List Byte} (ha : a + bs.length ≤ 4096) :
    DataWrite s (u.storeBytes a bs) :=
  ⟨h.pc, h.sp, h.stack, h.fault, fun hw => Memory.wf_writeBytes u.mem (h.mem hw) a bs ha, h.i⟩

/-- Data written, then `PC` set to an address in range. -/
theorem goTo (h : DataWrite s u) {a : Word} (ha : s.pc.toNat ≤ 0xFFE → a.toNat ≤ 0x10FE) : Completes s (u.goTo a) where
  run := rfl
  fault := h.fault
  mem := h.mem
  i := h.i
  pc hp _ := ha hp
  stack _ hs := by simpa [StackInRange, h.sp, h.stack] using hs

theorem skipIf (h : DataWrite s u) (c : Bool) : Completes s (u.skipIf c) :=
  h.goTo fun hp => by
    rw [h.pc]
    cases c <;> simp only [Bool.false_eq_true, if_true, if_false] <;> bv_omega

theorem advance (h : DataWrite s u) : Completes s u.advance := h.skipIf false

end DataWrite

theorem toNat_zext16_le (a : Imm12) : (zext16 a).toNat ≤ 0xFFF := by
  rw [toNat_zext16]; omega

/-- CALL at an address that was fetched pushes a return address in range and jumps into memory (R142). -/
theorem completes_call (s : State) (nnn : Imm12) (h : s.sp.val < 16) :
    Completes s ((s.push (s.pc + 2) h).goTo (zext16 nnn)) where
  run := rfl
  fault := rfl
  mem := id
  i := id
  pc _ _ := Nat.le_trans (toNat_zext16_le nnn) (by decide)
  stack hp hs j hj hlt := by
    have hlt : j < s.sp.val + 1 := hlt
    rw [State.goTo_stack, State.push_stack_getElem s _ h j hj]
    split
    · bv_omega
    · exact hs j hj (by omega)

/-- RET takes `PC` from an entry in use (R140). -/
theorem completes_ret (s : State) (h : 0 < s.sp.val) : Completes s (s.pop.goTo (s.top h)) where
  run := rfl
  fault := rfl
  mem := id
  i := id
  pc _ hs := Nat.le_trans (hs (s.sp.val - 1) (by omega) (by omega)) (by decide)
  stack _ hs j hj hlt := hs j hj (Nat.lt_of_lt_of_le hlt (Nat.sub_le _ _))

theorem toNat_zext16_add_zextByte (a : Imm12) (b : Byte) : (zext16 a + zextByte b).toNat = a.toNat + b.toNat := by
  rw [BitVec.toNat_add, toNat_zext16, toNat_zextByte]; omega

/-- An instruction with a range check ends as it does where the bytes exist, or takes `AddressFault` (R62). -/
theorem checkRange_ends {i : Instr} {s done : State} {len : Nat} (h : s.rangeOk len = true → Completes s done) :
    Ends i s (s.checkRange len done) := by
  cases hr : s.rangeOk len with
  | true => rw [State.checkRange_ok done hr]; exact .completes (h hr)
  | false => rw [State.checkRange_bad done hr]; exact .faults _

/-- An instruction that stores the bytes its range check asked for (R192, R193). -/
theorem checkRange_storeBytes_ends {i : Instr} {s : State} {bs : List Byte} {len : Nat} (hl : bs.length = len) :
    Ends i s (s.checkRange len (s.storeBytes s.i.toNat bs).advance) := by
  subst hl
  refine checkRange_ends fun hr => ?_
  rcases (s.rangeOk_iff bs.length).1 hr with h0 | hle
  · rw [List.length_eq_zero_iff.1 h0]; exact (DataWrite.plain s).advance
  · exact ((DataWrite.plain s).storeBytes hle).advance

theorem ret_ends (s : State) : Ends .ret s (execRet s) := by
  unfold execRet
  split
  · next h => exact .completes (completes_ret s h)
  · exact .faults _

theorem call_ends (nnn : Imm12) (s : State) : Ends (.call nnn) s (execCall nnn s) := by
  unfold execCall
  split
  · next h => exact .completes (completes_call s nnn h)
  · exact .faults _

theorem skp_ends (x : Reg) (s : State) : Ends (.skp x) s (execSkp x s) := by
  unfold execSkp
  split
  · exact .completes ((DataWrite.plain s).skipIf _)
  · exact .faults _

theorem sknp_ends (x : Reg) (s : State) : Ends (.sknp x) s (execSknp x s) := by
  unfold execSknp
  split
  · exact .completes ((DataWrite.plain s).skipIf _)
  · exact .faults _

theorem wkey_ends (x : Reg) (s : State) : Ends (.wkey x) s (execWkey x s) := by
  unfold execWkey
  split
  · exact .completes (DataWrite.plain s).advance
  · exact .waits rfl

/-- Every instruction, in every state, ends in one of the three ways; which data a completed one writes is read off its meaning
by unification. -/
theorem exec_ends (i : Instr) (s : State) : Ends i s (exec i s) :=
  match i with
  | .ret => ret_ends s
  | .call nnn => call_ends nnn s
  | .jp nnn => .completes ((DataWrite.plain s).goTo fun _ => Nat.le_trans (toNat_zext16_le nnn) (by decide))
  | .jpv nnn => .completes ((DataWrite.plain s).goTo fun _ => by rw [toNat_zext16_add_zextByte]; omega)
  | .sei _ _ | .snei _ _ | .ser _ _ | .sner _ _ => .completes ((DataWrite.plain s).skipIf _)
  | .ldi _ _ | .addi _ _ | .mov _ _ | .or _ _ | .and _ _ | .xor _ _ => .completes (DataWrite.plain s).advance
  | .add _ _ | .sub _ _ | .shr _ _ | .subn _ _ | .shl _ _ => .completes (DataWrite.plain s).advance
  | .cls | .rnd _ _ | .lddt _ | .stdt _ | .stst _ => .completes (DataWrite.plain s).advance
  | .drw _ _ _ | .ldm _ => checkRange_ends fun _ => (DataWrite.plain s).advance
  | .lda nnn => .completes ((DataWrite.plain s).setI (toNat_zext16_le nnn)).advance
  | .adda _ => .completes ((DataWrite.plain s).setI (by rw [BitVec.toNat_ofNat]; omega)).advance
  | .bcd _ => checkRange_storeBytes_ends rfl
  | .stm x => checkRange_storeBytes_ends (by simp)
  | .skp x => skp_ends x s
  | .sknp x => sknp_ends x s
  | .wkey x => wkey_ends x s

/-- Every instruction, in every state, has a next state. -/
theorem exec_total (i : Instr) (s : State) : ∃ t, exec i s = .next t := by
  cases hr : exec i s with
  | next t => exact ⟨t, rfl⟩
  | fault f => cases hr ▸ exec_ends i s
  | refused r => cases hr ▸ exec_ends i s

/-- Every state has a next state. -/
theorem step_total (s : State) : ∃ t, step s = .next t := by
  unfold step
  split
  · exact ⟨_, rfl⟩
  · split
    · exact ⟨_, rfl⟩
    · split
      · exact exec_total _ s
      · exact ⟨_, rfl⟩

end Sys2Proof.Machine
end

section
/-! SUPPORT. The result of a step, case by case (R7), and the event `STEP` in terms of `step`. -/

namespace Sys2Proof.Machine

theorem stepResult_eq_waiting_iff (s t : State) : stepResult s t = .waiting ↔ t.run = .awaitingKey := by
  unfold stepResult
  cases t.run <;> cases decode s.fetchWord <;> simp

theorem stepResult_eq_fault_iff (s t : State) (c : BitVec 3) :
    stepResult s t = .fault c ↔ t.run = .faulted ∧ c = t.faultCode := by
  unfold stepResult
  cases t.run <;> cases decode s.fetchWord <;> simp [eq_comm]

theorem stepResult_eq_ok_iff (s t : State) :
    stepResult s t = .ok ↔ t.run = .running ∧ ∃ i, decode s.fetchWord = .ok i := by
  unfold stepResult
  cases t.run <;> cases decode s.fetchWord <;> simp

theorem stepResult_eq_unknownOpcode_iff (s t : State) (w : Word) :
    stepResult s t = .unknownOpcode w ↔
      t.run = .running ∧ w = s.fetchWord ∧ decode w = .error (.unknownOpcode w) := by
  unfold stepResult
  cases t.run with
  | awaitingKey | faulted => simp
  | running =>
    cases hd : decode s.fetchWord with
    | ok i => simpa using fun hw => by simp [hw, hd]
    | error e =>
      obtain ⟨-, rfl⟩ := (decode_error_iff _ _).1 hd
      constructor
      · rintro ⟨⟩
        exact ⟨rfl, rfl, hd⟩
      · rintro ⟨-, rfl, -⟩
        rfl

/-- Over an unknown word, a step ends `Running` exactly when it fetched: the core was not faulted and `PC` was in range. -/
theorem step_running_iff_of_unknown {s t : State} {e : DecodeError} (h : step s = .next t)
    (he : decode s.fetchWord = .error e) : t.run = .running ↔ s.run ≠ .faulted ∧ s.pc.toNat ≤ 0xFFE := by
  rcases step_cases h with ⟨hr, rfl⟩ | ⟨-, hp, rfl⟩ | ⟨-, -, i, hi, -⟩ | ⟨hr, hp, -, rfl⟩
  · simp [hr]
  · simp; omega
  · rw [he] at hi; cases hi
  · simp [hr, hp]

/-- `STEP(b)` is `step` with the byte `b`, which it forgets after (R120, R263). -/
theorem event_step {s t : State} {b : Byte} (h : step { s with rndIn := some b } = .next t) :
    s.event (.step b) = .next ({ t with rndIn := none }, .stepped (stepResult s t)) := by
  simp only [State.event, State.stepWith, h]

/-- Settles O12: each result is read off `RUN` and the fetched word by `stepResult`; only `UnknownOpcode` needs the step itself,
which is `Running` over an unknown word exactly when the word was fetched. -/
theorem stepReportsItsOutcome : Obligations.StepReportsItsOutcome := by
  intro s b
  obtain ⟨t, ht⟩ := step_total { s with rndIn := some b }
  refine ⟨t, stepResult s t, ht, event_step ht, stepResult_eq_waiting_iff s t, stepResult_eq_fault_iff s t, fun w => ?_,
    stepResult_eq_ok_iff s t⟩
  rw [stepResult_eq_unknownOpcode_iff, ← and_assoc (a := s.run ≠ .faulted)]
  refine and_congr_left fun ⟨hw, he⟩ => ?_
  subst hw
  exact step_running_iff_of_unknown (s := { s with rndIn := some b }) ht he

end Sys2Proof.Machine
end

section
/-! SUPPORT. What keeps the invariant of the reachable states: each way a step ends, and each event. -/

namespace Sys2Proof.Machine

section Keeps
variable {s t : State}

/-- The invariant reads neither the timers, the latch, the dirty flag nor the model's own fields. -/
theorem Inv.setUnread (hs : Inv s) {d e : Byte} {k : Vector Bool 16} {b : Bool} {r : Option Byte} {n : Nat} :
    Inv { s with dt := d, st := e, key := k, dirty := b, rndIn := r, draws := n } :=
  ⟨hs.mem, hs.i, hs.pc, hs.stack, hs.fault, hs.wait⟩

theorem Inv.raise (hs : Inv s) (f : Fault) : Inv (s.raise f) where
  mem := hs.mem
  i := hs.i
  pc := hs.pc
  stack := hs.stack
  fault := by simp
  wait h := by simp at h

theorem Inv.await (hs : Inv s) (hr : s.run ≠ .faulted) (hp : s.pc.toNat ≤ 0xFFE) {x : Reg}
    (hx : decode s.fetchWord = .ok (.wkey x)) : Inv s.await where
  mem := hs.mem
  i := hs.i
  pc := hs.pc
  stack := hs.stack
  fault := by simpa [hr] using hs.fault
  wait _ := ⟨hp, x, hx⟩

theorem Completes.inv (h : Completes s t) (hs : Inv s) (hr : s.run ≠ .faulted) (hp : s.pc.toNat ≤ 0xFFE) : Inv t where
  mem := h.mem hs.mem
  i := h.i hs.i
  pc := h.pc hp hs.stack
  stack := h.stack hp hs.stack
  fault := by simpa [hr, h.run, h.fault] using hs.fault
  wait ht := by simp [h.run] at ht

theorem Ends.inv {i : Instr} (h : Ends i s (.next t)) (hs : Inv s) (hr : s.run ≠ .faulted) (hp : s.pc.toNat ≤ 0xFFE)
    (hi : decode s.fetchWord = .ok i) : Inv t := by
  cases h with
  | completes hc => exact hc.inv hs hr hp
  | faults f => exact hs.raise f
  | waits hx => exact hs.await hr hp (hx ▸ hi)

/-- Every step keeps the invariant. -/
theorem step_keeps_inv (hs : Inv s) (h : step s = .next t) : Inv t := by
  rcases step_cases h with ⟨-, rfl⟩ | ⟨-, -, rfl⟩ | ⟨hr, hp, i, hi, he⟩ | ⟨hr, hp, -, rfl⟩
  · exact hs
  · exact hs.raise _
  · exact (he ▸ exec_ends i s).inv hs hr hp hi
  · exact (DataWrite.plain s).advance.inv hs hr hp

theorem inv_reset : Inv State.reset where
  mem := by decide
  i := by decide
  pc := by decide
  stack j _ hj := absurd hj (Nat.not_lt_zero j)
  fault := by decide
  wait h := absurd h (by decide)

/-- `RESET` establishes the invariant from any state (R300). -/
theorem inv_doReset (s : State) : Inv s.doReset := inv_reset.setUnread

/-- A block stored inside memory keeps the invariant of a core that does not wait at a WKEY. -/
theorem Inv.storeBytes (hs : Inv s) (hr : s.run ≠ .awaitingKey) {a : Nat} {bs : List Byte} (ha : a + bs.length ≤ 4096) :
    Inv (s.storeBytes a bs) where
  mem := Memory.wf_writeBytes s.mem hs.mem a bs ha
  i := hs.i
  pc := hs.pc
  stack := hs.stack
  fault := hs.fault
  wait h := absurd h hr

/-- `LOAD` either succeeds with a fresh state that meets the invariant, or changes nothing (R302). -/
theorem load_cases (s : State) (bytes : List Byte) :
    ((s.load bytes).2 = true ∧ Inv (s.load bytes).1) ∨ s.load bytes = (s, false) := by
  unfold State.load
  split
  · next h =>
    have hlen : bytes.length ≤ 3584 := of_decide_eq_true h
    exact .inl ⟨rfl, (inv_doReset s).storeBytes RunState.noConfusion (Nat.add_le_add_left hlen 0x200)⟩
  · exact .inr rfl

/-- Every event keeps the invariant (R6). -/
theorem event_keeps_inv {e : Event} {r : EventResult} (hs : Inv s) (h : s.event e = .next (t, r)) : Inv t := by
  cases e with
  | reset => cases h; exact inv_doReset s
  | load bytes =>
    cases h
    rcases load_cases s bytes with ⟨-, hl⟩ | hl
    · exact hl
    · rw [hl]; exact hs
  | step b =>
    obtain ⟨u, hu⟩ := step_total { s with rndIn := some b }
    rw [event_step hu] at h
    cases h
    exact (step_keeps_inv hs.setUnread hu).setUnread
  | tick => cases h; exact hs.setUnread
  | keyWrite k b => cases h; exact hs.setUnread
  | dirtyClear => cases h; exact hs.setUnread

end Keeps

/-- Settles O54: the kept invariant is `event_keeps_inv`, whose one long case is the step; `RESET` and a successful `LOAD` start
from the reset state, whatever came before. -/
theorem invariantKeptByEvents : Obligations.InvariantKeptByEvents := by
  refine ⟨fun s t e r hs h => event_keeps_inv hs h, fun s t r h => ?_, fun s t bytes h => ?_⟩
  · cases h
    exact inv_doReset s
  · obtain ⟨rfl, hok⟩ : (s.load bytes).1 = t ∧ (s.load bytes).2 = true := by simpa [State.event] using h
    rcases load_cases s bytes with ⟨-, hl⟩ | hl
    · exact hl
    · rw [hl] at hok; cases hok

end Sys2Proof.Machine
end

section
/-! SUPPORT. Step and reset statements about the invariant of the reachable states (10_state.md R22, R24, R32, R33, R38). -/

namespace Sys2Proof.Machine

/-- Settles O53: each of the four ways of a step keeps the invariant. -/
theorem reachableInvariantKept : Obligations.ReachableInvariantKept := fun _ _ hs h => step_keeps_inv hs h

/-- Settles O52: the reset state meets each clause of the invariant. -/
theorem reachableInvariantAtReset : Obligations.ReachableInvariantAtReset := inv_reset

end Sys2Proof.Machine
end

section
/-! SUPPORT. A canonical memory is determined by what it reads (10_state.md R28, log entry 5). -/

namespace Sys2Proof.Machine

/-- The cells of a canonical memory are the addresses that read otherwise than an unlisted one, each with what it reads. -/
theorem Memory.mem_iff_read {m : Memory} (hw : m.wf) (c : Host.Cell) :
    c ∈ m ↔ m.read c.1 = c.2 ∧ c.2 ≠ unlisted c.1 := by
  obtain ⟨hsorted, hcells⟩ := hw
  constructor
  · intro hc
    exact ⟨read_of_mem m hsorted c hc, (hcells c hc).2⟩
  · rintro ⟨hread, hne⟩
    by_contra hc
    have hnot : ∀ d ∈ m, d.1 ≠ c.1 := by
      intro d hd hdc
      have hdread := read_of_mem m hsorted d hd
      rw [hdc, hread] at hdread
      exact hc (Prod.ext hdc hdread.symm ▸ hd)
    exact hne (hread ▸ read_of_not_listed m c.1 hnot)

/-- Settles O37: alike readings give the same cells, and a list with strictly rising addresses is determined by its cells. -/
theorem canonicalMemoryIsItsContents : Obligations.CanonicalMemoryIsItsContents := by
  intro m k hm hk hread
  have hcells (c : Host.Cell) : c ∈ m ↔ c ∈ k := by
    rw [Memory.mem_iff_read hm, Memory.mem_iff_read hk, hread]
  have : Std.Irrefl fun c d : Host.Cell => c.1 < d.1 := ⟨fun c => Nat.lt_irrefl c.1⟩
  have : Std.Antisymm fun c d : Host.Cell => c.1 < d.1 := ⟨fun _ _ h h' => absurd h' (Nat.lt_asymm h)⟩
  exact hm.1.eq_of_mem_iff hk.1 hcells

end Sys2Proof.Machine
end

section
/-! SUPPORT. What a faulted core does at each event (10_state.md R33, 40_step_cycle.md R127, 60_exceptions.md R256). -/

namespace Sys2Proof.Machine

/-- A step while faulted changes nothing (R127). -/
theorem step_of_faulted {s : State} (h : s.run = .faulted) : step s = .next s := if_pos h

/-- An image that does not fit is rejected and changes nothing (R302). -/
theorem load_of_too_long (s : State) {bytes : List Byte} (h : 3584 < bytes.length) : s.load bytes = (s, false) :=
  if_neg (by simpa [WellFormed.imageOk] using h)

/-- Settles O55: a faulted step changes nothing but the byte named with it, a long image is rejected, and the other three
events write their own fields. -/
theorem faultStaysUntilReset : Obligations.FaultStaysUntilReset := by
  intro s t e r hf h hreset hload
  cases e with
  | reset => exact absurd rfl hreset
  | load bytes =>
    rw [State.event, load_of_too_long s (hload bytes rfl)] at h
    cases h; rfl
  | step b =>
    rw [event_step (step_of_faulted (s := { s with rndIn := some b }) hf)] at h
    cases h; rfl
  | tick | keyWrite _ _ | dirtyClear => cases h; rfl

end Sys2Proof.Machine
end

section
/-! SUPPORT. What each instruction can write, and that it keeps the rest: one rule per operation over the state, then one line
per instruction (10_state.md R21 to R31, 40_step_cycle.md R126). -/

namespace Sys2Proof

/-- The general registers an instruction can write, VF as a flag included (R21). -/
def Instr.dests : Instr → List Reg
  | .ldi x _ | .addi x _ | .mov x _ | .or x _ | .and x _ | .xor x _ | .rnd x _ | .lddt x | .wkey x => [x]
  | .add x _ | .sub x _ | .shr x _ | .subn x _ | .shl x _ => [vF, x]
  | .adda _ | .drw _ _ _ => [vF]
  | .ldm x => (List.finRange 16).filter (· ≤ x)
  | _ => []

/-- The parts of the state an instruction can write, beside the registers, `PC`, `RUN` and the `FAULT` of a terminal fault. -/
def Instr.writes : Instr → List Machine.Part
  | .lda _ | .adda _ => [.i]
  | .call _ | .ret => [.stack]
  | .stdt _ => [.dt]
  | .stst _ => [.st]
  | .bcd _ | .stm _ => [.mem]
  | .cls | .drw _ _ _ => [.display, .dirty]
  | .rnd _ _ => [.draws]
  | _ => []

namespace Machine

/-- From `s` to `t` no register outside `ws`, no part outside `ps` but `FAULT`, and no key changed. Unlike `Frame` it
compares memory, display and stack as data and says nothing of `FAULT`. -/
structure Keeps (ws : List Reg) (ps : List Part) (s t : State) : Prop where
  v : ∀ r, r ∉ ws → t.getV r = s.getV r
  i : .i ∈ ps ∨ t.i = s.i
  stack : .stack ∈ ps ∨ (t.sp = s.sp ∧ t.stack = s.stack)
  dt : .dt ∈ ps ∨ t.dt = s.dt
  st : .st ∈ ps ∨ t.st = s.st
  mem : .mem ∈ ps ∨ t.mem = s.mem
  display : .display ∈ ps ∨ t.fb = s.fb
  dirty : .dirty ∈ ps ∨ t.dirty = s.dirty
  draws : .draws ∈ ps ∨ (t.rndIn = s.rndIn ∧ t.draws = s.draws)
  key : t.key = s.key

namespace Keeps

variable {ws : List Reg} {ps : List Part} {s u t : State}

theorem refl (s : State) : Keeps ws ps s s :=
  ⟨fun _ _ => rfl, .inr rfl, .inr ⟨rfl, rfl⟩, .inr rfl, .inr rfl, .inr rfl, .inr rfl, .inr rfl, .inr ⟨rfl, rfl⟩, rfl⟩

theorem setRegs (k : Keeps ws ps s u) {v : Vector Byte 16} (hv : ∀ r, r ∉ ws → v[r] = u.getV r) :
    Keeps ws ps s { u with v := v } :=
  { k with v := fun r hr => (hv r hr).trans (k.v r hr) }

theorem setV (k : Keeps ws ps s u) {x : Reg} (hx : x ∈ ws) {b : Byte} : Keeps ws ps s (u.setV x b) :=
  k.setRegs fun r hr => (State.getV_setV u x r b).trans (if_neg fun e : r = x => hr (e ▸ hx))

theorem loadRegs (k : Keeps ws ps s u) {x : Reg} (hx : ∀ r ≤ x, r ∈ ws) : Keeps ws ps s (u.loadRegs x) :=
  k.setRegs fun r hr => (State.getV_loadRegs u x r).trans (if_neg fun hle => hr (hx r hle))

theorem setI (k : Keeps ws ps s u) (hp : .i ∈ ps) {a : Word} : Keeps ws ps s (u.setI a) :=
  { k with i := .inl hp }

theorem setDt (k : Keeps ws ps s u) (hp : .dt ∈ ps) {b : Byte} : Keeps ws ps s (u.setDt b) :=
  { k with dt := .inl hp }

theorem setSt (k : Keeps ws ps s u) (hp : .st ∈ ps) {b : Byte} : Keeps ws ps s (u.setSt b) :=
  { k with st := .inl hp }

theorem storeBytes (k : Keeps ws ps s u) (hp : .mem ∈ ps) {a : Nat} {bs : List Byte} :
    Keeps ws ps s (u.storeBytes a bs) :=
  { k with mem := .inl hp }

theorem setDisplay (k : Keeps ws ps s u) (hp : .display ∈ ps) (hq : .dirty ∈ ps) {d : Display} :
    Keeps ws ps s (u.setDisplay d) :=
  { k with display := .inl hp, dirty := .inl hq }

theorem push (k : Keeps ws ps s u) (hp : .stack ∈ ps) {a : Word} {h : u.sp.val < 16} : Keeps ws ps s (u.push a h) :=
  { k with stack := .inl hp }

theorem pop (k : Keeps ws ps s u) (hp : .stack ∈ ps) : Keeps ws ps s u.pop :=
  { k with stack := .inl hp }

theorem consumeRnd (k : Keeps ws ps s u) (hp : .draws ∈ ps) : Keeps ws ps s u.consumeRnd :=
  { k with draws := .inl hp }

theorem goTo (k : Keeps ws ps s u) {a : Word} : Keeps ws ps s (u.goTo a) := { k with }

theorem await (k : Keeps ws ps s u) : Keeps ws ps s u.await := { k with }

theorem raise (k : Keeps ws ps s u) {f : Fault} : Keeps ws ps s (u.raise f) := { k with }

/-- An instruction that ends in `t` keeps what `t` keeps. -/
theorem next (k : Keeps ws ps s t) : ∀ t', (.next t : Answer) = .next t' → Keeps ws ps s t' :=
  fun _ h => Host.Outcome.next.inj h ▸ k

/-- A range check that fails keeps everything but `FAULT` (R62). -/
theorem checkRange {len : Nat} (k : Keeps ws ps s t) : ∀ t', s.checkRange len t = .next t' → Keeps ws ps s t' := by
  intro t' h
  rcases State.checkRange_cases h with ⟨-, rfl⟩ | ⟨-, rfl⟩
  · exact k
  · exact (refl s).raise

end Keeps

open Keeps

theorem ret_keeps (s : State) : ∀ t, execRet s = .next t → Keeps [] [.stack] s t := by
  unfold execRet
  split
  · exact ((refl s).pop List.mem_cons_self).goTo.next
  · exact (refl s).raise.next

theorem call_keeps (nnn : Imm12) (s : State) : ∀ t, execCall nnn s = .next t → Keeps [] [.stack] s t := by
  unfold execCall
  split
  · exact ((refl s).push List.mem_cons_self).goTo.next
  · exact (refl s).raise.next

theorem skp_keeps (x : Reg) (s : State) : ∀ t, execSkp x s = .next t → Keeps [] [] s t := by
  unfold execSkp
  split
  · exact (refl s).goTo.next
  · exact (refl s).raise.next

theorem sknp_keeps (x : Reg) (s : State) : ∀ t, execSknp x s = .next t → Keeps [] [] s t := by
  unfold execSknp
  split
  · exact (refl s).goTo.next
  · exact (refl s).raise.next

theorem wkey_keeps (x : Reg) (s : State) : ∀ t, execWkey x s = .next t → Keeps [x] [] s t := by
  unfold execWkey
  split
  · exact ((refl s).setV List.mem_cons_self).goTo.next
  · exact (refl s).await.next

/-- Every instruction, in every state, writes at most the registers and parts listed for it. -/
theorem exec_keeps (i : Instr) (s : State) : ∀ t, exec i s = .next t → Keeps i.dests i.writes s t :=
  have mem1 {α : Type} {a : α} {l : List α} : a ∈ a :: l := List.mem_cons_self
  have mem2 {α : Type} {a b : α} {l : List α} : b ∈ a :: b :: l := List.mem_cons_of_mem a List.mem_cons_self
  match i with
  | .ret => ret_keeps s
  | .call nnn => call_keeps nnn s
  | .skp x => skp_keeps x s
  | .sknp x => sknp_keeps x s
  | .wkey x => wkey_keeps x s
  | .jp _ | .jpv _ | .sei _ _ | .snei _ _ | .ser _ _ | .sner _ _ => (refl s).goTo.next
  | .ldi _ _ | .addi _ _ | .mov _ _ | .or _ _ | .and _ _ | .xor _ _ | .lddt _ => ((refl s).setV mem1).goTo.next
  | .add _ _ | .sub _ _ | .shr _ _ | .subn _ _ | .shl _ _ => (((refl s).setV mem1).setV mem2).goTo.next
  | .rnd _ _ => (((refl s).setV mem1).consumeRnd mem1).goTo.next
  | .lda _ => ((refl s).setI mem1).goTo.next
  | .adda _ => (((refl s).setV mem1).setI mem1).goTo.next
  | .stdt _ => ((refl s).setDt mem1).goTo.next
  | .stst _ => ((refl s).setSt mem1).goTo.next
  | .cls => ((refl s).setDisplay mem1 mem2).goTo.next
  | .drw _ _ _ => (((refl s).setV mem1).setDisplay mem1 mem2).goTo.checkRange
  | .bcd _ | .stm _ => ((refl s).storeBytes mem1).goTo.checkRange
  | .ldm _ => ((refl s).loadRegs fun r hr => List.mem_filter.2 ⟨List.mem_finRange r, decide_eq_true hr⟩).goTo.checkRange

end Machine

namespace Instr

theorem i_mem_writes {i : Instr} : .i ∈ i.writes ↔ (∃ a, i = .lda a) ∨ ∃ x, i = .adda x := by
  cases i <;> simp [writes]

theorem stack_mem_writes {i : Instr} : .stack ∈ i.writes ↔ (∃ a, i = .call a) ∨ i = .ret := by
  cases i <;> simp [writes]

theorem dt_mem_writes {i : Instr} : .dt ∈ i.writes ↔ ∃ x, i = .stdt x := by
  cases i <;> simp [writes]

theorem st_mem_writes {i : Instr} : .st ∈ i.writes ↔ ∃ x, i = .stst x := by
  cases i <;> simp [writes]

theorem mem_mem_writes {i : Instr} : .mem ∈ i.writes ↔ (∃ x, i = .bcd x) ∨ ∃ x, i = .stm x := by
  cases i <;> simp [writes]

theorem display_mem_writes {i : Instr} : .display ∈ i.writes ↔ i = .cls ∨ ∃ x y n, i = .drw x y n := by
  cases i <;> simp [writes]

theorem dirty_mem_writes {i : Instr} : .dirty ∈ i.writes ↔ i = .cls ∨ ∃ x y n, i = .drw x y n := by
  cases i <;> simp [writes]

/-- The instructions that can write VF: those of the flag table, and those that name it (R21). -/
theorem vF_mem_dests {i : Instr} : vF ∈ i.dests ↔
    (∃ x y, i = .add x y ∨ i = .sub x y ∨ i = .shr x y ∨ i = .subn x y ∨ i = .shl x y) ∨
    (∃ x, i = .adda x) ∨ (∃ x y n, i = .drw x y n) ∨
    (∃ nn, i = .ldi vF nn ∨ i = .addi vF nn ∨ i = .rnd vF nn) ∨
    (∃ y, i = .mov vF y ∨ i = .or vF y ∨ i = .and vF y ∨ i = .xor vF y) ∨
    i = .lddt vF ∨ i = .wkey vF ∨ i = .ldm vF := by
  have hlast (x : Reg) : vF ≤ x ↔ x = vF := Fin.last_le_iff
  cases i <;> simp [dests, eq_comm, hlast]

end Instr

namespace Machine

/-- Settles O56: a part that differs is one the instruction can write, and each part's writers are read off the table. -/
theorem writersOfEachPart : Obligations.WritersOfEachPart := by
  intro i s t h
  have k := exec_keeps i s t h
  refine ⟨fun hi => Instr.i_mem_writes.1 (k.i.resolve_right hi),
    fun hs => Instr.stack_mem_writes.1 (k.stack.resolve_right (not_and_or.2 hs)),
    fun hd => Instr.dt_mem_writes.1 (k.dt.resolve_right hd), fun hs => Instr.st_mem_writes.1 (k.st.resolve_right hs),
    fun hm => Instr.mem_mem_writes.1 (k.mem.resolve_right hm), fun hd => ?_, k.key⟩
  rcases hd with hfb | hdirty
  · exact Instr.display_mem_writes.1 (k.display.resolve_right hfb)
  · exact Instr.dirty_mem_writes.1 (k.dirty.resolve_right hdirty)

/-- Settles O57: if VF differs, it is a register the instruction can write. -/
theorem writersOfVf : Obligations.WritersOfVf := by
  intro i s t h hne
  have hmem : vF ∈ i.dests := by
    by_contra hnot
    exact hne ((exec_keeps i s t h).v vF hnot)
  exact Instr.vF_mem_dests.1 hmem

end Machine
end Sys2Proof
end

section
/-! SUPPORT. `ST` and `DIRTY` are outputs: what a step answers beside them does not depend on them (10_state.md R37). -/

namespace Sys2Proof.Machine

/-- Two answers are next states that differ at most in `ST` and `DIRTY`. -/
inductive SameButOutputs : Answer → Answer → Prop where
  | next {t t' : State} (h : hideOutputs t = hideOutputs t') : SameButOutputs (.next t) (.next t')

/-- States that differ at most in `ST` and `DIRTY` are one state with those two written. -/
theorem eq_of_hideOutputs_eq {s s' : State} (h : hideOutputs s = hideOutputs s') :
    s' = { s with st := s'.st, dirty := s'.dirty } := by
  cases s
  cases s'
  simpa [hideOutputs, eq_comm] using h

/-- An answer chosen by a test that reads neither output. -/
theorem SameButOutputs.dite {c : Prop} [Decidable c] {f f' : c → Answer} {g g' : ¬ c → Answer}
    (hf : ∀ h, SameButOutputs (f h) (f' h)) (hg : ∀ h, SameButOutputs (g h) (g' h)) :
    SameButOutputs (if h : c then f h else g h) (if h : c then f' h else g' h) := by
  split
  · next h => exact hf h
  · next h => exact hg h

section Outputs
variable (s : State) (e : Byte) (b : Bool)

theorem checkRange_sameButOutputs {len : Nat} {t t' : State} (h : hideOutputs t = hideOutputs t') :
    SameButOutputs (s.checkRange len t) (State.checkRange { s with st := e, dirty := b } len t') :=
  .dite (fun _ => .next h) fun _ => .next rfl

theorem ret_sameButOutputs : SameButOutputs (execRet s) (execRet { s with st := e, dirty := b }) :=
  .dite (fun _ => .next rfl) fun _ => .next rfl

theorem call_sameButOutputs (nnn : Imm12) :
    SameButOutputs (execCall nnn s) (execCall nnn { s with st := e, dirty := b }) :=
  .dite (fun _ => .next rfl) fun _ => .next rfl

theorem skp_sameButOutputs (x : Reg) : SameButOutputs (execSkp x s) (execSkp x { s with st := e, dirty := b }) := by
  have hx : State.getV { s with st := e, dirty := b } x = s.getV x := rfl
  unfold execSkp
  rw [hx]
  cases keyIndex (s.getV x) <;> exact .next rfl

theorem sknp_sameButOutputs (x : Reg) : SameButOutputs (execSknp x s) (execSknp x { s with st := e, dirty := b }) := by
  have hx : State.getV { s with st := e, dirty := b } x = s.getV x := rfl
  unfold execSknp
  rw [hx]
  cases keyIndex (s.getV x) <;> exact .next rfl

theorem wkey_sameButOutputs (x : Reg) : SameButOutputs (execWkey x s) (execWkey x { s with st := e, dirty := b }) := by
  have hk : State.lowestKey { s with st := e, dirty := b } = s.lowestKey := rfl
  unfold execWkey
  rw [hk]
  cases s.lowestKey <;> exact .next rfl

/-- No instruction reads an output: where a meaning has no test, the two answers agree by computation. -/
theorem exec_sameButOutputs (i : Instr) : SameButOutputs (exec i s) (exec i { s with st := e, dirty := b }) :=
  match i with
  | .ret => ret_sameButOutputs s e b
  | .call nnn => call_sameButOutputs s e b nnn
  | .skp x => skp_sameButOutputs s e b x
  | .sknp x => sknp_sameButOutputs s e b x
  | .wkey x => wkey_sameButOutputs s e b x
  | .drw _ _ _ | .bcd _ | .stm _ | .ldm _ => checkRange_sameButOutputs s e b rfl
  | .cls | .jp _ | .sei _ _ | .snei _ _ | .ser _ _ | .sner _ _ | .jpv _ => .next rfl
  | .ldi _ _ | .addi _ _ | .mov _ _ | .or _ _ | .and _ _ | .xor _ _ | .rnd _ _ => .next rfl
  | .add _ _ | .sub _ _ | .shr _ _ | .subn _ _ | .shl _ _ => .next rfl
  | .lda _ | .adda _ | .lddt _ | .stdt _ | .stst _ => .next rfl

theorem step_sameButOutputs : SameButOutputs (step s) (step { s with st := e, dirty := b }) := by
  have hw : State.fetchWord { s with st := e, dirty := b } = s.fetchWord := rfl
  refine .dite (fun _ => .next rfl) fun _ => .dite (fun _ => .next rfl) fun _ => ?_
  rw [hw]
  cases decode s.fetchWord with
  | ok i => exact exec_sameButOutputs s e b i
  | error _ => exact .next rfl

end Outputs

/-- Settles O58: every test of a step, from the fetch to the operands, reads neither `ST` nor `DIRTY`. -/
theorem soundTimerAndDirtyAreUnread : Obligations.SoundTimerAndDirtyAreUnread := by
  intro s s' t hs ht
  have hsame := step_sameButOutputs s s'.st s'.dirty
  rw [← eq_of_hideOutputs_eq hs, ht] at hsame
  generalize ha : step s' = a at hsame
  cases hsame with
  | next h => exact ⟨_, rfl, h⟩

end Sys2Proof.Machine
end

section
/-! SUPPORT. A step from the cases of its fetch (40_step_cycle.md R63, R121, R122), and what STM leaves where the next fetch
reads (20_memory.md R74, 43_index_memory.md R193). -/

namespace Sys2Proof.Machine

/-! ### The step, by its fetch -/

/-- A fetch above 0xFFE is the whole step: it takes `AddressFault` (R63). -/
theorem step_of_pc_past_top {s : State} (hr : s.run ≠ .faulted) (hp : 0xFFE < s.pc.toNat) :
    step s = .next (s.raise .addressFault) := (if_neg hr).trans (if_pos hp)

/-- A fetched word that decodes is executed (R121, R122). -/
theorem step_of_decode {s : State} {i : Instr} (hr : s.run ≠ .faulted) (hp : s.pc.toNat ≤ 0xFFE)
    (hi : decode s.fetchWord = .ok i) : step s = exec i s := by
  rw [step, if_neg hr, if_neg (by omega), hi]

/-- Settles O10: the state with the fault taken has `FAULT` code 3 and keeps the rest. -/
theorem fetchPastTopFaults : Obligations.FetchPastTopFaults := fun s hr hp =>
  ⟨s.raise .addressFault, step_of_pc_past_top hr hp, faultTaken_raise s _, rfl⟩

/-! ### The bytes STM stores -/

/-- `V[0]` to `V[x]` stored from `I` on, as Fx55 does where the bytes exist (R193). -/
def State.storeRegs (s : State) (x : Reg) : State := s.storeBytes s.i.toNat (s.v.toList.take (x.val + 1))

theorem exec_stm_of_in_range {x : Reg} {s : State} (hx : s.i.toNat + x.val ≤ 0xFFF) :
    exec (.stm x) s = .next (s.storeRegs x).advance :=
  State.checkRange_ok _ ((s.rangeOk_iff _).2 (.inr (by omega)))

/-- Register `k` of the stored ones lies at `I + k`. -/
theorem State.readMem_storeRegs {x k : Reg} {s : State} (hw : s.mem.wf) (hx : s.i.toNat + x.val ≤ 0xFFF) (hk : k ≤ x) :
    (s.storeRegs x).readMem (s.i.toNat + k.val) = s.getV k := by
  have hlen : (s.v.toList.take (x.val + 1)).length = x.val + 1 := by simp
  have hkx : k.val < x.val + 1 := Nat.lt_succ_of_le hk
  rw [State.readMem, State.storeRegs, State.storeBytes_mem, Memory.read_writeBytes s.mem hw _ _ _ (by omega),
    if_pos (by omega), Nat.add_sub_cancel_left]
  simp [List.getD_eq_getElem?_getD, hkx, State.getV]

/-- Where `I` is the address of the next instruction, that instruction is `V0` followed by `V1`. -/
theorem State.fetchWord_storeRegs_advance {x : Reg} {s : State} (hw : s.mem.wf) (hx : s.i.toNat + x.val ≤ 0xFFF)
    (h1 : 1 ≤ x) (hpc : (s.pc + 2).toNat = s.i.toNat) : (s.storeRegs x).advance.fetchWord = s.getV 0 ++ s.getV 1 := by
  change wordOfBytes ((s.storeRegs x).readMem (s.pc + 2).toNat) ((s.storeRegs x).readMem ((s.pc + 2).toNat + 1)) = _
  rw [hpc]
  exact congrArg₂ wordOfBytes (readMem_storeRegs (k := 0) hw hx (Fin.zero_le x)) (readMem_storeRegs (k := 1) hw hx h1)

/-- Settles O36: after the STM the core runs at `PC + 2`, which is `I`, and the word there is the stored one. -/
theorem storedCodeIsFetched : Obligations.StoredCodeIsFetched := by
  intro x s t i hw h1 hi hx ht hd
  have hx1 : 1 ≤ x.val := h1
  have hpc : (s.pc + 2).toNat = s.i.toNat := by bv_omega
  rw [exec_stm_of_in_range hx] at ht
  obtain rfl : (s.storeRegs x).advance = t := Host.Outcome.next.inj ht
  have hrun : (s.storeRegs x).advance.run ≠ .faulted := by simp
  have hle : (s.storeRegs x).advance.pc.toNat ≤ 0xFFE := hpc.trans_le (by omega)
  exact step_of_decode hrun hle (by rwa [State.fetchWord_storeRegs_advance hw hx h1 hpc])

end Sys2Proof.Machine
end

section
/-! SUPPORT. The round trip between instructions and their words (30_encoding.md R91, R92, R94, R95), by the format of the
instruction one way and by the family of the word the other. -/

namespace Sys2Proof

/-! ### From an instruction to its word and back -/

/-- Every instruction is read back from its word, with every operand: the fields of an encoded word are the operands, and its
family, with `n` or `nn` where they choose, selects the instruction. -/
theorem decodeTree_encode (i : Instr) : decodeTree (encode i) = some i := by
  cases i with
  | cls | ret => rfl
  | jp | call | lda | jpv => simp [encode, decodeTree]
  | sei | snei | ldi | addi | rnd => simp [encode, decodeTree]
  | ser | sner | drw => simp [encode, decodeTree]
  | mov | or | and | xor | add | sub | shr | subn | shl => simp [encode, decodeTree_family8, decode8]
  | skp | sknp => simp [encode, decodeTree_familyE, decodeE]
  | lddt | wkey | stdt | stst | adda | bcd | stm | ldm => simp [encode, decodeTree_familyF, decodeF]

@[simp] theorem decode_encode (i : Instr) : decode (encode i) = .ok i := (decode_ok_iff _ i).2 (decodeTree_encode i)

/-- The byte decoder reads the word of the first two bytes and hands the rest back. -/
theorem decodeBytes_bytesOfWord_append {w : Word} {i : Instr} (h : decode w = .ok i) (rest : List Byte) :
    decodeBytes (bytesOfWord w ++ rest) = .ok (i, rest) := by
  simp [bytesOfWord, decodeBytes, h]

/-- Settles O1: the round trip of the word carries over to its bytes. -/
theorem decodeOfEncode : Obligations.DecodeOfEncode := fun i rest =>
  ⟨decode_encode i, decodeBytes_bytesOfWord_append (decode_encode i) rest⟩

/-! ### From a word to its instruction and back, family by family (R93) -/

section Families
variable {w : Word} {i : Instr}

theorem encode_of_decode0 (h : decode0 w = some i) : encode i = w := by
  rcases decode0_eq_some h with ⟨rfl, rfl⟩ | ⟨rfl, rfl⟩ <;> rfl

theorem encode_of_decode8 (ho : Field.op w = 0x8#4) (h : decode8 w = some i) : encode i = w := by
  rcases decode8_eq_some h with ⟨hn, rfl⟩ | ⟨hn, rfl⟩ | ⟨hn, rfl⟩ | ⟨hn, rfl⟩ | ⟨hn, rfl⟩ | ⟨hn, rfl⟩ | ⟨hn, rfl⟩ |
    ⟨hn, rfl⟩ | ⟨hn, rfl⟩ <;> exact encXYN_of ho hn

theorem encode_of_decodeE (ho : Field.op w = 0xE#4) (h : decodeE w = some i) : encode i = w := by
  rcases decodeE_eq_some h with ⟨hb, rfl⟩ | ⟨hb, rfl⟩ <;> exact encXNN_of ho hb

theorem encode_of_decodeF (ho : Field.op w = 0xF#4) (h : decodeF w = some i) : encode i = w := by
  rcases decodeF_eq_some h with ⟨hb, rfl⟩ | ⟨hb, rfl⟩ | ⟨hb, rfl⟩ | ⟨hb, rfl⟩ | ⟨hb, rfl⟩ | ⟨hb, rfl⟩ | ⟨hb, rfl⟩ |
    ⟨hb, rfl⟩ <;> exact encXNN_of ho hb

/-- The instruction a word decodes to is built from fields that make up the whole word, the ignored `y` of SHR and SHL
included (R95). -/
theorem encode_of_decodeTree (h : decodeTree w = some i) : encode i = w := by
  rcases family_cases (Field.op w) with ho | ho | ho | ho | ho | ho | ho | ho | ho | ho | ho | ho | ho | ho | ho | ho
  · exact encode_of_decode0 (decodeTree_family0 ho ▸ h)
  · cases decodeTree_family1 ho ▸ h; exact encNNN_of ho
  · cases decodeTree_family2 ho ▸ h; exact encNNN_of ho
  · cases decodeTree_family3 ho ▸ h; exact encXNN_of ho rfl
  · cases decodeTree_family4 ho ▸ h; exact encXNN_of ho rfl
  · obtain ⟨hn, ⟨⟩⟩ := Option.ite_none_right_eq_some.1 (decodeTree_family5 ho ▸ h); exact encXYN_of ho hn
  · cases decodeTree_family6 ho ▸ h; exact encXNN_of ho rfl
  · cases decodeTree_family7 ho ▸ h; exact encXNN_of ho rfl
  · exact encode_of_decode8 ho (decodeTree_family8 ho ▸ h)
  · obtain ⟨hn, ⟨⟩⟩ := Option.ite_none_right_eq_some.1 (decodeTree_family9 ho ▸ h); exact encXYN_of ho hn
  · cases decodeTree_familyA ho ▸ h; exact encNNN_of ho
  · cases decodeTree_familyB ho ▸ h; exact encNNN_of ho
  · cases decodeTree_familyC ho ▸ h; exact encXNN_of ho rfl
  · cases decodeTree_familyD ho ▸ h; exact encXYN_of ho rfl
  · exact encode_of_decodeE ho (decodeTree_familyE ho ▸ h)
  · exact encode_of_decodeF ho (decodeTree_familyF ho ▸ h)

theorem encode_of_decode (h : decode w = .ok i) : encode i = w := encode_of_decodeTree ((decode_ok_iff w i).1 h)

end Families

/-- Settles O2: whichever family the word is of, its instruction encodes to it. -/
theorem encodeOfDecode : Obligations.EncodeOfDecode := fun _ _ => encode_of_decode

end Sys2Proof
end

section
/-! SUPPORT. The patterns of the instruction table as numbers: the digits of a pattern give one constant, each operand adds its
own digits (30_encoding.md R91, R94). -/

namespace Sys2Proof

section Patterns
variable {i : Instr} {o : BitVec 4} {x y n : Reg} {b : Byte} {a : Imm12} {k : Nat}

theorem decode_ofNat (h : (encode i).toNat = k) : decode (BitVec.ofNat 16 k) = .ok i := by
  rw [← h, BitVec.ofNat_toNat, BitVec.setWidth_eq, decode_encode]

/-- Format `NNN`, as `1nnn`. -/
theorem decode_ofNat_nnn (hi : encode i = encNNN o a) (hk : k = o.toNat * 4096) :
    decode (BitVec.ofNat 16 (k + a.toNat)) = .ok i :=
  decode_ofNat (by rw [hi, toNat_encNNN, hk])

/-- Format `XNN`, as `3xnn`. -/
theorem decode_ofNat_xnn (hi : encode i = encXNN o x b) (hk : k = o.toNat * 4096) :
    decode (BitVec.ofNat 16 (k + 0x100 * x.val + b.toNat)) = .ok i :=
  decode_ofNat (by rw [hi, toNat_encXNN]; omega)

/-- Format `X`, as `Ex9E`: `nn` is constant. -/
theorem decode_ofNat_x (hi : encode i = encXNN o x b) (hk : k = o.toNat * 4096 + b.toNat) :
    decode (BitVec.ofNat 16 (k + 0x100 * x.val)) = .ok i :=
  decode_ofNat (by rw [hi, toNat_encXNN]; omega)

/-- Format `XYN`, as `Dxyn`. -/
theorem decode_ofNat_xyn (hi : encode i = encXYN o x y n) (hk : k = o.toNat * 4096) :
    decode (BitVec.ofNat 16 (k + 0x100 * x.val + 0x10 * y.val + n.val)) = .ok i :=
  decode_ofNat (by rw [hi, toNat_encXYN]; omega)

/-- Format `XY`, as `8xy4`: `n` is constant. -/
theorem decode_ofNat_xy (hi : encode i = encXYN o x y n) (hk : k = o.toNat * 4096 + n.val) :
    decode (BitVec.ofNat 16 (k + 0x100 * x.val + 0x10 * y.val)) = .ok i :=
  decode_ofNat (by rw [hi, toNat_encXYN]; omega)

end Patterns

/-- Settles O3: each pattern is the word `encode` lays out in the format of its instruction. -/
theorem wordsLayOutTheirFields : Obligations.WordsLayOutTheirFields := fun _ _ _ _ _ =>
  ⟨⟨decode_encode .cls, decode_encode .ret⟩,
    ⟨decode_ofNat_nnn rfl rfl, decode_ofNat_nnn rfl rfl, decode_ofNat_nnn rfl rfl, decode_ofNat_nnn rfl rfl⟩,
    ⟨decode_ofNat_xnn rfl rfl, decode_ofNat_xnn rfl rfl, decode_ofNat_xnn rfl rfl, decode_ofNat_xnn rfl rfl,
      decode_ofNat_xnn rfl rfl⟩,
    ⟨decode_ofNat_xy rfl rfl, decode_ofNat_xy rfl rfl, decode_ofNat_xy rfl rfl, decode_ofNat_xy rfl rfl,
      decode_ofNat_xy rfl rfl, decode_ofNat_xy rfl rfl, decode_ofNat_xy rfl rfl, decode_ofNat_xy rfl rfl,
      decode_ofNat_xy rfl rfl, decode_ofNat_xy rfl rfl, decode_ofNat_xy rfl rfl⟩,
    decode_ofNat_xyn rfl rfl,
    ⟨decode_ofNat_x rfl rfl, decode_ofNat_x rfl rfl, decode_ofNat_x rfl rfl, decode_ofNat_x rfl rfl, decode_ofNat_x rfl rfl,
      decode_ofNat_x rfl rfl, decode_ofNat_x rfl rfl, decode_ofNat_x rfl rfl, decode_ofNat_x rfl rfl,
      decode_ofNat_x rfl rfl⟩⟩

/-- Settles O6: thirteen closed words, evaluated. -/
theorem sampleWordsDecode : Obligations.SampleWordsDecode := by
  unfold Obligations.SampleWordsDecode
  decide

end Sys2Proof
end

section
/-! SUPPORT. The opcode map: what a mask keeps of a word, and the instruction of a row with the operands of a word
(30_encoding.md R93, R94). -/

namespace Sys2Proof

/-! ### What the four masks keep -/

section Masks
variable (o : BitVec 4) (x y n : Reg) (b : Byte) (a : Imm12)

theorem encNNN_and_F000 : encNNN o a &&& 0xF000 = encNNN o 0 := by
  rw [show (0xF000 : Word) = BitVec.allOnes 4 ++ 0#12 from rfl, encNNN, BitVec.and_append, BitVec.and_allOnes,
    BitVec.and_zero]
  rfl

theorem encXNN_and_F0FF : encXNN o x b &&& 0xF0FF = encXNN o 0 b := by
  rw [show (0xF0FF : Word) = BitVec.allOnes 4 ++ 0#4 ++ BitVec.allOnes 8 from rfl, encXNN, BitVec.and_append,
    BitVec.and_append, BitVec.and_allOnes, BitVec.and_zero, BitVec.and_allOnes]
  rfl

theorem encXYN_and_F00F : encXYN o x y n &&& 0xF00F = encXYN o 0 0 n := by
  rw [show (0xF00F : Word) = BitVec.allOnes 4 ++ 0#4 ++ 0#4 ++ BitVec.allOnes 4 from rfl, encXYN, BitVec.and_append,
    BitVec.and_append, BitVec.and_append, BitVec.and_allOnes, BitVec.and_zero, BitVec.and_zero, BitVec.and_allOnes]
  rfl

/-- Of any word, the mask of the families without a selector keeps the family. -/
theorem and_F000 (w : Word) : w &&& 0xF000 = encNNN (Field.op w) 0 :=
  (congrArg (· &&& 0xF000) (word_eq_encNNN w).symm).trans (encNNN_and_F000 _ _)

theorem encXNN_and_F000 : encXNN o x b &&& 0xF000 = encNNN o 0 := by rw [and_F000, op_encXNN]

theorem encXYN_and_F000 : encXYN o x y n &&& 0xF000 = encNNN o 0 := by rw [and_F000, op_encXYN]

end Masks

section Selection
variable {w : Word} {o : BitVec 4} {n : Reg} {b : Byte}

theorem op_of_and_F000 (h : w &&& 0xF000 = encNNN o 0) : Field.op w = o := by
  simpa using congrArg Field.op ((and_F000 w).symm.trans h)

theorem op_nn_of_and_F0FF (h : w &&& 0xF0FF = encXNN o 0 b) : Field.op w = o ∧ Field.nn w = b := by
  rw [← word_eq_encXNN w, encXNN_and_F0FF] at h
  exact ⟨by simpa using congrArg Field.op h, by simpa using congrArg Field.nn h⟩

theorem op_n_of_and_F00F (h : w &&& 0xF00F = encXYN o 0 0 n) : Field.op w = o ∧ Field.n w = n := by
  rw [← word_eq_encXYN w, encXYN_and_F00F] at h
  exact ⟨by simpa using congrArg Field.op h, by simpa using congrArg Field.n h⟩

end Selection

/-! ### The rows -/

theorem mem_opcodeMap {row : OpcodeRow} : row ∈ opcodeMap ↔ ∃ i : Instr, i.row = row := by
  constructor
  · intro h
    simp only [opcodeMap, ← List.map_append, List.mem_map] at h
    obtain ⟨i, -, hi⟩ := h
    exact ⟨i, hi⟩
  · rintro ⟨i, rfl⟩
    cases i <;> simp [opcodeMap, Instr.row]

/-- The word of an instruction matches its row. -/
theorem encode_and_mask (i : Instr) : encode i &&& i.row.mask = i.row.value :=
  match i with
  | .cls | .ret => rfl
  | .jp _ | .call _ | .lda _ | .jpv _ => encNNN_and_F000 _ _
  | .sei _ _ | .snei _ _ | .ldi _ _ | .addi _ _ | .rnd _ _ => encXNN_and_F000 _ _ _
  | .ser _ _ | .sner _ _ | .mov _ _ | .or _ _ | .and _ _ | .xor _ _
  | .add _ _ | .sub _ _ | .shr _ _ | .subn _ _ | .shl _ _ => encXYN_and_F00F _ _ _ _
  | .drw _ _ _ => encXYN_and_F000 _ _ _ _
  | .skp _ | .sknp _ | .lddt _ | .wkey _ | .stdt _ | .stst _
  | .adda _ | .bcd _ | .stm _ | .ldm _ => encXNN_and_F0FF _ _ _

/-- The instruction of the same row whose operands are the fields of a word. -/
def Instr.withFields (w : Word) : Instr → Instr
  | .cls => .cls
  | .ret => .ret
  | .jp _ => .jp (Field.nnn w)
  | .call _ => .call (Field.nnn w)
  | .sei _ _ => .sei (Field.x w) (Field.nn w)
  | .snei _ _ => .snei (Field.x w) (Field.nn w)
  | .ser _ _ => .ser (Field.x w) (Field.y w)
  | .ldi _ _ => .ldi (Field.x w) (Field.nn w)
  | .addi _ _ => .addi (Field.x w) (Field.nn w)
  | .mov _ _ => .mov (Field.x w) (Field.y w)
  | .or _ _ => .or (Field.x w) (Field.y w)
  | .and _ _ => .and (Field.x w) (Field.y w)
  | .xor _ _ => .xor (Field.x w) (Field.y w)
  | .add _ _ => .add (Field.x w) (Field.y w)
  | .sub _ _ => .sub (Field.x w) (Field.y w)
  | .shr _ _ => .shr (Field.x w) (Field.y w)
  | .subn _ _ => .subn (Field.x w) (Field.y w)
  | .shl _ _ => .shl (Field.x w) (Field.y w)
  | .sner _ _ => .sner (Field.x w) (Field.y w)
  | .lda _ => .lda (Field.nnn w)
  | .jpv _ => .jpv (Field.nnn w)
  | .rnd _ _ => .rnd (Field.x w) (Field.nn w)
  | .drw _ _ _ => .drw (Field.x w) (Field.y w) (Field.n w)
  | .skp _ => .skp (Field.x w)
  | .sknp _ => .sknp (Field.x w)
  | .lddt _ => .lddt (Field.x w)
  | .wkey _ => .wkey (Field.x w)
  | .stdt _ => .stdt (Field.x w)
  | .stst _ => .stst (Field.x w)
  | .adda _ => .adda (Field.x w)
  | .bcd _ => .bcd (Field.x w)
  | .stm _ => .stm (Field.x w)
  | .ldm _ => .ldm (Field.x w)

theorem Instr.row_withFields (w : Word) (i : Instr) : (i.withFields w).row = i.row := by cases i <;> rfl

/-- A word that matches a row is the word of that row's instruction: the mask covers every bit that is no operand. -/
theorem encode_withFields {w : Word} (i : Instr) (h : w &&& i.row.mask = i.row.value) : encode (i.withFields w) = w :=
  match i with
  | .cls | .ret => ((BitVec.and_allOnes (x := w)).symm.trans h).symm
  | .jp _ | .call _ | .lda _ | .jpv _ => encNNN_of (op_of_and_F000 h)
  | .sei _ _ | .snei _ _ | .ldi _ _ | .addi _ _ | .rnd _ _ => encXNN_of (op_of_and_F000 h) rfl
  | .ser _ _ | .sner _ _ | .mov _ _ | .or _ _ | .and _ _ | .xor _ _
  | .add _ _ | .sub _ _ | .shr _ _ | .subn _ _ | .shl _ _ =>
    have ⟨ho, hn⟩ := op_n_of_and_F00F h
    encXYN_of ho hn
  | .drw _ _ _ => encXYN_of (op_of_and_F000 h) rfl
  | .skp _ | .sknp _ | .lddt _ | .wkey _ | .stdt _ | .stst _ | .adda _ | .bcd _ | .stm _ | .ldm _ =>
    have ⟨ho, hb⟩ := op_nn_of_and_F0FF h
    encXNN_of ho hb

theorem decode_of_and_mask {w : Word} {i : Instr} (h : w &&& i.row.mask = i.row.value) :
    decode w = .ok (i.withFields w) := by
  simpa only [encode_withFields i h] using decode_encode (i.withFields w)

theorem and_mask_of_decode {w : Word} {i : Instr} (h : decode w = .ok i) : w &&& i.row.mask = i.row.value := by
  simpa only [encode_of_decode h] using encode_and_mask i

/-- Settles O4: matching a row is decoding to one of its instructions, so that two rows matched are one, and a word that
matches none decodes to none. -/
theorem decodeFollowsOpcodeMap : Obligations.DecodeFollowsOpcodeMap := by
  refine ⟨rfl, fun w row hrow => ?_, fun w r q hr hq hwr hwq => ?_, fun w => ?_⟩
  · obtain ⟨i, rfl⟩ := mem_opcodeMap.1 hrow
    constructor
    · exact fun h => ⟨i.withFields w, decode_of_and_mask h, i.row_withFields w⟩
    · rintro ⟨j, hj, hji⟩
      exact hji ▸ and_mask_of_decode hj
  · obtain ⟨i, rfl⟩ := mem_opcodeMap.1 hr
    obtain ⟨j, rfl⟩ := mem_opcodeMap.1 hq
    have hij : i.withFields w = j.withFields w :=
      Except.ok.inj ((decode_of_and_mask hwr).symm.trans (decode_of_and_mask hwq))
    rw [← i.row_withFields w, hij, j.row_withFields]
  · constructor
    · intro he row hrow hw
      obtain ⟨i, rfl⟩ := mem_opcodeMap.1 hrow
      cases he.symm.trans (decode_of_and_mask hw)
    · intro hno
      cases hd : decode w with
      | ok i => exact absurd (and_mask_of_decode hd) (hno _ (mem_opcodeMap.2 ⟨i, rfl⟩))
      | error e => rw [((decode_error_iff w e).1 hd).2]

end Sys2Proof
end

section
/-! SUPPORT. The unknown words (30_encoding.md R96): the selectors of a word as the words a shift or a mask leaves, and what each
family leaves out. -/

namespace Sys2Proof

section UnknownWords
variable (w : Word)

theorem shiftRight_12 : w >>> 12 = (Field.op w).setWidth 16 := by
  apply BitVec.eq_of_toNat_eq
  rw [BitVec.toNat_setWidth_of_le (by decide), toNat_op, BitVec.toNat_ushiftRight, Nat.shiftRight_eq_div_pow]

theorem and_F : w &&& 0xF = BitVec.ofNat 16 (Field.n w).val := by
  apply BitVec.eq_of_toNat_eq
  rw [BitVec.toNat_ofNat, val_n, BitVec.toNat_and]
  exact (Nat.and_two_pow_sub_one_eq_mod w.toNat 4).trans (by omega)

theorem and_FF : w &&& 0xFF = (Field.nn w).setWidth 16 := by
  apply BitVec.eq_of_toNat_eq
  rw [BitVec.toNat_setWidth_of_le (by decide), toNat_nn, BitVec.toNat_and]
  exact Nat.and_two_pow_sub_one_eq_mod w.toNat 8

variable {w}

/-- A choice that answers an instruction where it holds fails exactly where it does not hold and the rest fails. -/
theorem ite_some_eq_none_iff {c : Prop} [Decidable c] {i : Instr} {e : Option Instr} :
    (if c then some i else e) = none ↔ ¬ c ∧ e = none := by
  by_cases hc : c <;> simp [hc]

theorem decode0_eq_none_iff : decode0 w = none ↔ w ≠ 0x00E0 ∧ w ≠ 0x00EE := by
  simp [decode0, ite_some_eq_none_iff]

theorem n_eq_zero_iff : Field.n w = 0 ↔ w &&& 0xF = 0 := by
  rw [and_F]
  generalize Field.n w = n
  revert n
  decide

theorem decode8_eq_none_iff :
    decode8 w = none ↔ w &&& 0xF ∈ ([0x8, 0x9, 0xA, 0xB, 0xC, 0xD, 0xF] : List Word) := by
  simp only [decode8, ite_some_eq_none_iff, and_F]
  generalize Field.n w = n
  revert n
  decide

theorem decodeE_eq_none_iff : decodeE w = none ↔ w &&& 0xFF ∉ ([0x9E, 0xA1] : List Word) := by
  simp only [decodeE, ite_some_eq_none_iff, and_FF]
  generalize Field.nn w = b
  revert b
  decide

theorem decodeF_eq_none_iff :
    decodeF w = none ↔ w &&& 0xFF ∉ ([0x07, 0x0A, 0x15, 0x18, 0x1E, 0x33, 0x55, 0x65] : List Word) := by
  simp only [decodeF, ite_some_eq_none_iff, and_FF]
  generalize Field.nn w = b
  revert b
  decide

end UnknownWords

/-- Settles O5: in six of the sixteen families the tree can fail, and each says when; in the other ten it answers an
instruction for every word. -/
theorem unknownWordsByFamily : Obligations.UnknownWordsByFamily := by
  intro w
  rw [decode_error_iff, and_iff_left rfl, shiftRight_12]
  rcases family_cases (Field.op w) with ho | ho | ho | ho | ho | ho | ho | ho | ho | ho | ho | ho | ho | ho | ho | ho
  · simp [ho, decodeTree_family0, decode0_eq_none_iff]
  · simp [ho, decodeTree_family1]
  · simp [ho, decodeTree_family2]
  · simp [ho, decodeTree_family3]
  · simp [ho, decodeTree_family4]
  · simp [ho, decodeTree_family5, n_eq_zero_iff]
  · simp [ho, decodeTree_family6]
  · simp [ho, decodeTree_family7]
  · simp [ho, decodeTree_family8, decode8_eq_none_iff]
  · simp [ho, decodeTree_family9, n_eq_zero_iff]
  · simp [ho, decodeTree_familyA]
  · simp [ho, decodeTree_familyB]
  · simp [ho, decodeTree_familyC]
  · simp [ho, decodeTree_familyD]
  · simp [ho, decodeTree_familyE, decodeE_eq_none_iff]
  · simp [ho, decodeTree_familyF, decodeF_eq_none_iff]

end Sys2Proof
end

section
/-! SUPPORT. The step over an unknown word (30_encoding.md R96, 60_exceptions.md R253). -/

namespace Sys2Proof.Machine

/-- A word that decodes to no instruction is stepped over (R253). -/
theorem step_of_unknown {s : State} {e : DecodeError} (hr : s.run ≠ .faulted) (hp : s.pc.toNat ≤ 0xFFE)
    (he : decode s.fetchWord = .error e) : step s = .next s.advance := by
  rw [step, if_neg hr, if_neg (by omega), he]

/-- Settles O8: the two bytes at `PC` are the fetched word, and `State.advance` moves `PC` and `RUN` only. -/
theorem stepOverUnknownWord : Obligations.StepOverUnknownWord := by
  intro s w hr hp hw hno
  obtain rfl : w = s.fetchWord := hw
  cases hd : decode s.fetchWord with
  | ok i => exact absurd hd (hno i)
  | error e =>
    obtain ⟨-, rfl⟩ := (decode_error_iff _ e).1 hd
    exact ⟨s.advance, step_of_unknown hr hp hd, rfl, rfl, Frame.of_pc_run rfl,
      (stepResult_eq_unknownOpcode_iff s s.advance _).2 ⟨rfl, rfl, hd⟩⟩

/-- Settles O11: every instruction ends in a next state, and the other ways of a step are next states themselves. -/
theorem everyStepAnswersNext : Obligations.EveryStepAnswersNext := step_total

end Sys2Proof.Machine
end

section
/-! SUPPORT. The step of a decoded word and of a faulted core (40_step_cycle.md R121, R127), and the first step after a load,
which fetches the image's first word (R128, 70_reset_and_hazards.md R302). -/

namespace Sys2Proof.Machine

/-- Settles O7: the two bytes at `PC` are the fetched word. -/
theorem stepRunsDecoded : Obligations.StepRunsDecoded := fun _ _ hr hp hi => step_of_decode hr hp hi

/-- Settles O9: the step leaves the faulted state, from which the result is read. -/
theorem stepWhileFaulted : Obligations.StepWhileFaulted := fun s hf =>
  ⟨step_of_faulted hf, (stepResult_eq_fault_iff s s _).2 ⟨hf, rfl⟩⟩

/-! ### The loaded image -/

section Load
variable (s : State)

/-- An image that fits is stored from 0x200 on into the reset state (R302). -/
theorem load_of_fits {bytes : List Byte} (h : bytes.length ≤ 3584) :
    s.load bytes = (s.doReset.storeBytes 0x200 bytes, true) := if_pos (decide_eq_true h)

/-- Byte `k` of a loaded image lies at 0x200 + `k`. -/
theorem readMem_load {bytes : List Byte} (h : bytes.length ≤ 3584) {k : Nat} (hk : k < bytes.length) :
    (s.load bytes).1.readMem (0x200 + k) = bytes[k] := by
  rw [load_of_fits s h, State.readMem, State.storeBytes_mem,
    Memory.read_writeBytes _ (inv_doReset s).mem _ _ _ (by omega), if_pos (by omega), Nat.add_sub_cancel_left,
    List.getD_eq_getElem _ _ hk]

/-- A loaded core is about to execute at 0x200 (R38, R302). -/
theorem pc_load {bytes : List Byte} (h : bytes.length ≤ 3584) : (s.load bytes).1.pc = 0x200 := by
  rw [load_of_fits s h]; rfl

/-- A loaded core is running, whatever it was before (R256, R302). -/
theorem run_load {bytes : List Byte} (h : bytes.length ≤ 3584) : (s.load bytes).1.run = .running := by
  rw [load_of_fits s h]; rfl

/-- The word at `PC` after a load is the first two bytes of the image (R128). -/
theorem fetchWord_load {b0 b1 : Byte} {rest : List Byte} (h : (b0 :: b1 :: rest).length ≤ 3584) :
    (s.load (b0 :: b1 :: rest)).1.fetchWord = b0 ++ b1 := by
  have h0 := readMem_load s h (k := 0) (by simp)
  have h1 := readMem_load s h (k := 1) (by simp)
  rw [State.fetchWord, pc_load s h]
  exact congrArg₂ wordOfBytes h0 h1

end Load

/-- Settles O51: a loaded core runs at 0x200, where the image's first word lies. -/
theorem firstStepRunsTheImage : Obligations.FirstStepRunsTheImage := by
  intro s t b0 b1 rest i r hlen hload hi
  have hfits : (b0 :: b1 :: rest).length ≤ 3584 := hlen
  cases hload
  have hrun : (s.load (b0 :: b1 :: rest)).1.run ≠ .faulted := by simp [run_load s hfits]
  have hpc : (s.load (b0 :: b1 :: rest)).1.pc.toNat ≤ 0xFFE := by simp [pc_load s hfits]
  exact step_of_decode hrun hpc (by rwa [fetchWord_load s hfits])

end Sys2Proof.Machine
end

section
/-! SUPPORT. Control transfer (41_control_flow.md): what RET, CALL and the skips answer, and a frame from the rules of `Keeps`. -/

namespace Sys2Proof.Machine

/-! ### Frames -/

/-- What is kept as data reads the same; a frame says so of `FAULT` too. -/
theorem Keeps.frame {ws : List Reg} {ps : List Part} {s t : State} (k : Keeps ws ps s t) (hf : t.fault = s.fault) :
    Frame s t ws ps := by
  refine Frame.of_key k.v k.key fun p hp => ?_
  cases p with
  | i => exact k.i.resolve_left hp
  | stack =>
    obtain ⟨hsp, hstack⟩ := k.stack.resolve_left hp
    exact ⟨hsp, fun j _ => by rw [hstack]⟩
  | dt => exact k.dt.resolve_left hp
  | st => exact k.st.resolve_left hp
  | mem => exact fun a => congrArg (·.read a) (k.mem.resolve_left hp)
  | display => exact fun r c => congrArg (·.pixel r c) (k.display.resolve_left hp)
  | dirty => exact k.dirty.resolve_left hp
  | fault => exact hf
  | draws => exact k.draws.resolve_left hp

theorem frame_goTo (s : State) (a : Word) : Frame s (s.goTo a) [] [] := Frame.of_pc_run rfl

/-! ### Calls and returns -/

section Stack
variable {s : State}

theorem exec_call_of_free (nnn : Imm12) (h : s.sp.val < 16) :
    exec (.call nnn) s = .next ((s.push (s.pc + 2) h).goTo (zext16 nnn)) := dif_pos h

theorem exec_call_of_full (nnn : Imm12) (h : s.sp.val = 16) :
    exec (.call nnn) s = .next (s.raise .stackOverflow) := dif_neg (by omega)

theorem exec_ret_of_used (h : 0 < s.sp.val) : exec .ret s = .next (s.pop.goTo (s.top h)) := dif_pos h

theorem exec_ret_of_empty (h : s.sp.val = 0) : exec .ret s = .next (s.raise .stackUnderflow) := dif_neg (by omega)

end Stack

/-- Settles O18: the call's state has the pushed entry on top, so the return takes `PC` from it and leaves `SP` as it was. -/
theorem callThenRetComesBack : Obligations.CallThenRetComesBack := by
  intro nnn s t h ht
  rw [exec_call_of_free nnn h] at ht
  obtain rfl := Host.Outcome.next.inj ht
  have hmem : Part.stack ∈ [Part.stack] := List.mem_cons_self
  refine ⟨_, exec_ret_of_used (Nat.succ_pos _), s.top_push (s.pc + 2) h, s.pop_push_sp (s.pc + 2) h, fun j hj hlt => ?_,
    (((Keeps.refl s).push hmem).goTo.pop hmem).goTo.frame rfl⟩
  exact (s.push_stack_getElem _ h j hj).trans (if_neg hlt.ne)

/-- Settles O15: the push writes the entry at `SP` and no other. -/
theorem callPushesReturn : Obligations.CallPushesReturn := by
  intro nnn s h
  refine ⟨_, exec_call_of_free nnn h, toNat_zext16 nnn, rfl, rfl, ?_, fun j hj hne => ?_,
    ((Keeps.refl s).push List.mem_cons_self).goTo.frame rfl⟩
  · exact (s.push_stack_getElem _ h _ h).trans (if_pos rfl)
  · exact (s.push_stack_getElem _ h j hj).trans (if_neg hne)

/-- Settles O16: the pop moves `SP` and writes no entry. -/
theorem retPopsReturn : Obligations.RetPopsReturn := fun s h =>
  ⟨_, exec_ret_of_used h, rfl, rfl, rfl, fun _ _ => rfl, ((Keeps.refl s).pop List.mem_cons_self).goTo.frame rfl⟩

/-- Settles O17: the two failed tests of `SP` take their faults. -/
theorem stackFaults : Obligations.StackFaults :=
  ⟨fun nnn s h => ⟨_, exec_call_of_full nnn h, faultTaken_raise s _, rfl⟩,
    fun s h => ⟨_, exec_ret_of_empty h, faultTaken_raise s _, rfl⟩⟩

/-! ### Jumps -/

/-- Settles O14: the target is `nnn` in sixteen bits. -/
theorem jpGoesToTarget : Obligations.JpGoesToTarget := fun nnn s =>
  ⟨s.goTo (zext16 nnn), rfl, toNat_zext16 nnn, rfl, frame_goTo s _⟩

/-- Settles O21: the sum of twelve and eight bits fits in sixteen. -/
theorem jpvAddsV0 : Obligations.JpvAddsV0 := fun nnn s =>
  ⟨s.goTo (zext16 nnn + zextByte (s.getV 0)), rfl, toNat_zext16_add_zextByte nnn (s.getV 0), rfl, frame_goTo s _⟩

/-! ### Skips -/

theorem State.pc_skipIf {s : State} {c : Bool} {p : Prop} [Decidable p] (hc : c = true ↔ p) :
    (s.skipIf c).pc = if p then s.pc + 4 else s.pc + 2 := by
  by_cases hp : p
  · simp [hp, hc.2 hp]
  · simp [hp, mt hc.1 hp]

/-- An instruction of the skip class tests `p` and moves `PC` and `RUN` only (R123, R124). -/
theorem exec_skips {i : Instr} {s : State} {c : Bool} {p : Prop} [Decidable p] (hi : exec i s = .next (s.skipIf c))
    (hc : c = true ↔ p) :
    ∃ t, exec i s = .next t ∧ t.pc = (if p then s.pc + 4 else s.pc + 2) ∧ t.run = .running ∧ Frame s t [] [] :=
  ⟨s.skipIf c, hi, State.pc_skipIf hc, rfl, frame_goTo s _⟩

/-- Settles O19: the tests are equality and inequality of `Vx` and `nn`. -/
theorem skipsOnImmediate : Obligations.SkipsOnImmediate := fun _ _ _ =>
  ⟨exec_skips rfl beq_iff_eq, exec_skips rfl bne_iff_ne⟩

/-- Settles O20: the tests are equality and inequality of `Vx` and `Vy`. -/
theorem skipsOnRegisters : Obligations.SkipsOnRegisters := fun _ _ _ =>
  ⟨exec_skips rfl beq_iff_eq, exec_skips rfl bne_iff_ne⟩

end Sys2Proof.Machine
end

section
/-! SUPPORT. The ALU (42_alu.md): a register written at the end of an instruction, alone or after VF, what is read back then, the
flags and the differences as numbers. -/

namespace Sys2Proof.Machine

/-! ### One register written -/

section OneRegister
variable (s : State) (x : Reg) (b : Byte)

theorem getV_setV_advance : (s.setV x b).advance.getV x = b := (s.getV_setV x x b).trans (if_pos rfl)

theorem frame_setV_advance : Frame s (s.setV x b).advance [x] [] :=
  ((Keeps.refl s).setV List.mem_cons_self).goTo.frame rfl

end OneRegister

/-- Settles O23: the three instructions write `Vx` once and no flag. -/
theorem loadAddImmediateMove : Obligations.LoadAddImmediateMove := fun x y nn s =>
  ⟨⟨_, rfl, getV_setV_advance s x nn, rfl, rfl, frame_setV_advance s x nn⟩,
    ⟨_, rfl, by rw [getV_setV_advance, BitVec.toNat_add], rfl, rfl, frame_setV_advance s x _⟩,
    ⟨_, rfl, getV_setV_advance s x (s.getV y), rfl, rfl, frame_setV_advance s x _⟩⟩

/-- Settles O24: the three instructions write `Vx` once and no flag, and the operations on bytes go bit by bit. -/
theorem logicLeavesTheFlag : Obligations.LogicLeavesTheFlag := fun x y s =>
  ⟨⟨_, rfl, fun k => by rw [getV_setV_advance, BitVec.getLsbD_or], rfl, rfl, frame_setV_advance s x _⟩,
    ⟨_, rfl, fun k => by rw [getV_setV_advance, BitVec.getLsbD_and], rfl, rfl, frame_setV_advance s x _⟩,
    ⟨_, rfl, fun k => by rw [getV_setV_advance, BitVec.getLsbD_xor], rfl, rfl, frame_setV_advance s x _⟩⟩

/-! ### The free random byte -/

theorem State.rndByte_of_some {s : State} {b : Byte} (h : s.rndIn = some b) : s.rndByte = b := by simp [rndByte, h]

theorem State.rndByte_of_none {s : State} (h : s.rndIn = none) : s.rndByte = Config.rnd s.draws := by simp [rndByte, h]

/-- Settles O29: `Vx` is the byte of the step under the mask, from whichever of the two fields it comes. -/
theorem rndMasksTheFreeByte : Obligations.RndMasksTheFreeByte := by
  intro x nn s
  have hx : (s.setV x (s.rndByte &&& nn)).consumeRnd.advance.getV x = s.rndByte &&& nn := getV_setV_advance s x _
  refine ⟨_, rfl, fun b hb => ?_, fun hn => ?_, ?_, rfl, rfl, rfl, rfl,
    (((Keeps.refl s).setV List.mem_cons_self).consumeRnd List.mem_cons_self).goTo.frame rfl⟩
  · rw [hx, State.rndByte_of_some hb]
  · rw [hx, State.rndByte_of_none hn]
  · rw [hx, BitVec.and_assoc, BitVec.and_not_self]; exact BitVec.and_zero

/-! ### VF written, then a register -/

section FlagThenRegister
variable {s : State} {x r : Reg} {f : Bool} {b : Byte}

theorem getV_vF_setFlag : (s.setFlag f).getV vF = Flag.byte f := (s.getV_setV vF vF _).trans (if_pos rfl)

theorem getV_setFlag_of_ne (h : r ≠ vF) : (s.setFlag f).getV r = s.getV r := (s.getV_setV vF r _).trans (if_neg h)

/-- The flag outlives the result unless the result goes to VF. -/
theorem getV_vF_setFlag_setV_advance (h : x ≠ vF) : ((s.setFlag f).setV x b).advance.getV vF = Flag.byte f :=
  (((s.setFlag f).getV_setV x vF b).trans (if_neg h.symm)).trans getV_vF_setFlag

theorem frame_setFlag_setV_advance : Frame s ((s.setFlag f).setV x b).advance [x, vF] [] :=
  (((Keeps.refl s).setV (List.mem_cons_of_mem x List.mem_cons_self)).setV List.mem_cons_self).goTo.frame rfl

end FlagThenRegister

/-! ### Flags and results as numbers -/

theorem Flag.byte_carry (a b : Byte) : Flag.byte (Flag.carry a b) = if a.toNat + b.toNat > 255 then 1 else 0 := by
  simp [Flag.byte, Flag.carry]

theorem Flag.toNat_byte_notBorrow (a b : Byte) :
    (Flag.byte (Flag.notBorrow a b)).toNat = if a.toNat ≥ b.toNat then 1 else 0 := by
  simp [Flag.notBorrow, Bool.toNat, Bool.cond_decide]

theorem Flag.toNat_byte_outRight (a : Byte) : (Flag.byte (Flag.outRight a)).toNat = a.toNat % 2 := by
  rw [Flag.toNat_byte, Flag.outRight_eq, Bool.toNat, Bool.cond_decide]
  split <;> omega

theorem Flag.toNat_byte_outLeft (a : Byte) : (Flag.byte (Flag.outLeft a)).toNat = a.toNat / 128 := by
  have := a.isLt
  rw [Flag.toNat_byte, Flag.outLeft_eq, Bool.toNat, Bool.cond_decide]
  split <;> omega

/-- A flag shifted right by one is lost (R168 with `x` = VF). -/
theorem Flag.byte_shiftRight_one (f : Bool) : Flag.byte f >>> 1 = 0 := by cases f <;> rfl

/-- A flag shifted left by one is 2 or 0 (R170 with `x` = VF). -/
theorem Flag.byte_shiftLeft_one (f : Bool) : Flag.byte f <<< 1 = if f then 2 else 0 := by cases f <;> rfl

theorem toNat_byte_sub (a b : Byte) : ((a - b).toNat : Int) = (a.toNat - b.toNat : Int) % 256 := by
  have := b.isLt
  rw [BitVec.toNat_sub]
  omega

/-- A difference of two registers, written to a third. -/
theorem toNat_getV_setV_sub_advance (u : State) (x a b : Reg) :
    ((u.setV x (u.getV a - u.getV b)).advance.getV x).toNat = ((u.getV a).toNat - (u.getV b).toNat : Int) % 256 := by
  rw [getV_setV_advance, toNat_byte_sub]

/-! ### Sum, differences and shifts -/

/-- Settles O25: the sum is formed before VF is written, and written after it. -/
theorem addWritesSumAndCarry : Obligations.AddWritesSumAndCarry := by
  intro x y s
  refine ⟨_, rfl, ?_, fun hx => ?_, rfl, rfl, frame_setFlag_setV_advance⟩
  · rw [getV_setV_advance, BitVec.toNat_add]
  · rw [getV_vF_setFlag_setV_advance hx, Flag.byte_carry]

/-- Settles O26: the difference is of the operands as they read once VF is written. -/
theorem subWritesDifferenceAndNotBorrow : Obligations.SubWritesDifferenceAndNotBorrow := by
  rintro x y s f rfl
  rw [← Flag.toNat_byte_notBorrow]
  refine ⟨_, rfl, fun hx => ?_, fun hx hy => ?_, fun hx hy => ?_, fun hx hy => ?_, fun hx hy => ?_, rfl, rfl,
    frame_setFlag_setV_advance⟩
  · rw [getV_vF_setFlag_setV_advance hx]
  · rw [toNat_getV_setV_sub_advance, getV_setFlag_of_ne hx, getV_setFlag_of_ne hy]
  · subst hy; rw [toNat_getV_setV_sub_advance, getV_setFlag_of_ne hx, getV_vF_setFlag]
  · subst hx; rw [toNat_getV_setV_sub_advance, getV_setFlag_of_ne hy, getV_vF_setFlag]
  · subst hx hy; exact (getV_setV_advance _ _ _).trans (BitVec.sub_self _)

/-- Settles O27: as for SUB, the operands the other way round. -/
theorem subnWritesDifferenceAndNotBorrow : Obligations.SubnWritesDifferenceAndNotBorrow := by
  rintro x y s f rfl
  rw [← Flag.toNat_byte_notBorrow]
  refine ⟨_, rfl, fun hx => ?_, fun hx hy => ?_, fun hx hy => ?_, fun hx hy => ?_, fun hx hy => ?_, rfl, rfl,
    frame_setFlag_setV_advance⟩
  · rw [getV_vF_setFlag_setV_advance hx]
  · rw [toNat_getV_setV_sub_advance, getV_setFlag_of_ne hx, getV_setFlag_of_ne hy]
  · subst hy; rw [toNat_getV_setV_sub_advance, getV_setFlag_of_ne hx, getV_vF_setFlag]
  · subst hx; rw [toNat_getV_setV_sub_advance, getV_setFlag_of_ne hy, getV_vF_setFlag]
  · subst hx hy; exact (getV_setV_advance _ _ _).trans (BitVec.sub_self _)

/-- Settles O28: the shift is of `Vx` as it reads once VF is written, so for `x` = VF it is the flag that is shifted. -/
theorem shiftsMoveABitIntoVf : Obligations.ShiftsMoveABitIntoVf := by
  intro x y s
  refine ⟨⟨_, rfl, fun hx => ⟨?_, ?_⟩, fun hx => ?_, rfl, rfl, frame_setFlag_setV_advance⟩,
    ⟨_, rfl, fun hx => ⟨?_, ?_⟩, fun hx => ?_, rfl, rfl, frame_setFlag_setV_advance⟩⟩
  · rw [getV_setV_advance, getV_setFlag_of_ne hx, BitVec.toNat_ushiftRight, Nat.shiftRight_eq_div_pow, pow_one]
  · rw [getV_vF_setFlag_setV_advance hx, Flag.toNat_byte_outRight]
  · subst hx; rw [getV_setV_advance, getV_vF_setFlag, Flag.byte_shiftRight_one]
  · rw [getV_setV_advance, getV_setFlag_of_ne hx, BitVec.toNat_shiftLeft, Nat.shiftLeft_eq, pow_one]
  · rw [getV_vF_setFlag_setV_advance hx, Flag.toNat_byte_outLeft]
  · subst hx; rw [getV_setV_advance, getV_vF_setFlag, Flag.byte_shiftLeft_one, Flag.outLeft_eq]; simp only [decide_eq_true_eq]

end Sys2Proof.Machine
end

section
/-! SUPPORT. Index and memory (43_index_memory.md): what the instructions with a range check answer on either side of it, the
bytes a stored block leaves, and a decimal digit in a byte. -/

namespace Sys2Proof.Machine

/-! ### The address register -/

theorem Flag.byte_passesTop (i : Word) (b : Byte) :
    Flag.byte (Flag.passesTop i b) = if i.toNat + b.toNat > 0xFFF then 1 else 0 := by
  simp [Flag.byte, Flag.passesTop]

/-- Settles O30: `nnn` in sixteen bits goes to `I` and nowhere else. -/
theorem ldaLoadsI : Obligations.LdaLoadsI := fun nnn s =>
  ⟨_, rfl, toNat_zext16 nnn, rfl, rfl, ((Keeps.refl s).setI List.mem_cons_self).goTo.frame rfl⟩

/-- Settles O31: the sum modulo 4096 fits in `I`, and the flag is of the sum formed before VF is written. -/
theorem addaWrapsAndFlags : Obligations.AddaWrapsAndFlags := by
  intro x s
  refine ⟨_, rfl, ?_, getV_vF_setFlag.trans (Flag.byte_passesTop s.i (s.getV x)), rfl, rfl,
    (((Keeps.refl s).setV List.mem_cons_self).setI List.mem_cons_self).goTo.frame rfl⟩
  have hlt : (s.i.toNat + (s.getV x).toNat) % 4096 < 2 ^ 16 := by omega
  exact (BitVec.toNat_ofNat _ _).trans (Nat.mod_eq_of_lt hlt)

/-! ### Both sides of the range check (R62, R195) -/

section RangeCheck
variable {s : State} {x : Reg}

theorem State.checkRange_of_le {len : Nat} (done : State) (h : s.i.toNat + len ≤ 4096) :
    s.checkRange len done = .next done := State.checkRange_ok done ((s.rangeOk_iff len).2 (.inr h))

theorem exec_bcd_of_in_range (h : s.i.toNat + 2 ≤ 0xFFF) :
    exec (.bcd x) s = .next (s.storeBytes s.i.toNat (decimalDigits (s.getV x))).advance :=
  State.checkRange_of_le _ (by omega)

theorem exec_ldm_of_in_range (h : s.i.toNat + x.val ≤ 0xFFF) : exec (.ldm x) s = .next (s.loadRegs x).advance :=
  State.checkRange_of_le _ (by omega)

/-- A range of some bytes that passes the top of memory takes `AddressFault`, however the instruction would end. -/
theorem checkRange_faults {len : Nat} (done : State) (hlen : 0 < len) (h : 4096 < s.i.toNat + len) :
    ∃ t, s.checkRange len done = .next t ∧ FaultTaken s t .addressFault := by
  have hbad : ¬ s.rangeOk len = true := by rw [s.rangeOk_iff]; omega
  exact ⟨_, State.checkRange_bad done (Bool.eq_false_of_not_eq_true hbad), faultTaken_raise s _⟩

end RangeCheck

/-- Settles O35: the ranges are of 3, `x + 1` and `n` bytes. -/
theorem dataRangePastTopFaults : Obligations.DataRangePastTopFaults :=
  ⟨fun _ _ h => checkRange_faults _ (by decide) (by omega),
    fun x _ h => ⟨checkRange_faults _ x.val.succ_pos (by omega), checkRange_faults _ x.val.succ_pos (by omega)⟩,
    fun _ _ _ _ hn h => checkRange_faults _ hn h⟩

/-! ### Loads -/

theorem frame_loadRegs_advance {s : State} {x : Reg} {ws : List Reg} (hx : ∀ r ≤ x, r ∈ ws) :
    Frame s (s.loadRegs x).advance ws [] :=
  ((Keeps.refl s).loadRegs hx).goTo.frame (by simp)

/-- Settles O34: the registers up to `x` come from memory, the others are kept. -/
theorem ldmLoadsRegisters : Obligations.LdmLoadsRegisters := by
  intro x s hx
  refine ⟨_, exec_ldm_of_in_range hx, fun k hk => ?_, fun k hk => ?_, congrArg (· + 2) (s.loadRegs_pc x), rfl,
    frame_loadRegs_advance fun r hr => ?_⟩
  · rw [State.advance_eq, State.getV_goTo, State.getV_loadRegs, if_pos hk]
  · rw [State.advance_eq, State.getV_goTo, State.getV_loadRegs, if_neg hk.not_ge]
  · exact List.mem_filter.2 ⟨List.mem_finRange r, decide_eq_true hr⟩

/-! ### Stores -/

section Stores
variable {s : State} {a : Nat} {bs : List Byte}

/-- Byte `k` of a stored block lies at `a + k`. -/
theorem State.readMem_storeBytes (hw : s.mem.wf) (ha : a + bs.length ≤ 4096) {k : Nat} (hk : k < bs.length) :
    (s.storeBytes a bs).readMem (a + k) = bs[k] := by
  rw [readMem, storeBytes_mem, Memory.read_writeBytes s.mem hw _ _ _ ha, if_pos (by omega), Nat.add_sub_cancel_left,
    List.getD_eq_getElem _ _ hk]

/-- A stored block leaves the bytes beside it as they were. -/
theorem keepsMemOutside_storeBytes_advance (hw : s.mem.wf) (ha : a + bs.length ≤ 4096) :
    KeepsMemOutside s (s.storeBytes a bs).advance a bs.length := by
  intro k hk
  exact (Memory.read_writeBytes s.mem hw _ _ _ ha).trans (if_neg (by omega))

theorem frame_storeBytes_advance : Frame s (s.storeBytes a bs).advance [] [.mem] :=
  ((Keeps.refl s).storeBytes List.mem_cons_self).goTo.frame rfl

end Stores

/-- Digit `k` of a byte lies at `I + k` once its digits are stored there (R192). -/
theorem toNat_readMem_bcd {s : State} {b : Byte} (hw : s.mem.wf) (hi : s.i.toNat + 2 ≤ 0xFFF) {k d : Nat} (hk : k < 3)
    (hd : d < 256) (h : (decimalDigits b)[k]'hk = BitVec.ofNat 8 d) :
    ((s.storeBytes s.i.toNat (decimalDigits b)).readMem (s.i.toNat + k)).toNat = d := by
  rw [State.readMem_storeBytes hw (Nat.succ_le_succ hi) hk, h, BitVec.toNat_ofNat, Nat.mod_eq_of_lt hd]

/-- Settles O32: the three digits of a byte fit in a byte each, and are stored as one block. -/
theorem bcdStoresDigits : Obligations.BcdStoresDigits := by
  intro x s hw hi
  have hx := (s.getV x).isLt
  exact ⟨_, exec_bcd_of_in_range hi, toNat_readMem_bcd hw hi (k := 0) (by decide) (by omega) rfl,
    toNat_readMem_bcd hw hi (k := 1) (by decide) (by omega) rfl, toNat_readMem_bcd hw hi (k := 2) (by decide) (by omega) rfl,
    keepsMemOutside_storeBytes_advance hw (Nat.succ_le_succ hi), rfl, rfl, frame_storeBytes_advance⟩

/-- Settles O33: the registers `V0` to `Vx` are stored as one block of `x + 1` bytes. -/
theorem stmStoresRegisters : Obligations.StmStoresRegisters := by
  intro x s hw hx
  have hlen : (s.v.toList.take (x.val + 1)).length = x.val + 1 := by simp
  have hfits : s.i.toNat + (s.v.toList.take (x.val + 1)).length ≤ 4096 := by omega
  have hout := keepsMemOutside_storeBytes_advance hw hfits
  rw [hlen] at hout
  exact ⟨_, exec_stm_of_in_range hx, fun _ hk => State.readMem_storeRegs hw hx hk, hout, rfl, rfl,
    frame_storeBytes_advance⟩

end Sys2Proof.Machine
end

section
/-! SUPPORT. Display (44_display.md): the frame of a display instruction, the state in which DRW completes, and what a drawn sprite
does to a pixel, to VF and to a second draw of itself. -/

namespace Sys2Proof.Machine

/-- A display instruction writes the registers `ws`, the display and `DIRTY`, and nothing else. -/
theorem frame_setDisplay_advance {s u : State} {ws : List Reg} {d : Display} (k : Keeps ws [.display, .dirty] s u)
    (hf : u.fault = s.fault) : Frame s (u.setDisplay d).advance ws [.display, .dirty] :=
  (k.setDisplay List.mem_cons_self (List.mem_cons_of_mem _ List.mem_cons_self)).goTo.frame hf

/-- Settles O38: every pixel of the cleared display is 0. -/
theorem clsClearsAndMarksDirty : Obligations.ClsClearsAndMarksDirty := fun s =>
  ⟨_, rfl, Display.pixel_clear, rfl, rfl, rfl, frame_setDisplay_advance (Keeps.refl s) rfl⟩

/-! ### One sprite drawn -/

/-- The state in which Dxyn completes once its range check has passed (R211). -/
def State.drawn (s : State) (x y n : Reg) : State :=
  ((s.setFlag (s.drawing x y n).hit).setDisplay (s.drawing x y n).fb).advance

theorem Flag.byte_eq_one_iff (f : Bool) : Flag.byte f = 1 ↔ f = true := by cases f <;> decide

section Sprite
variable {s : State} {x y n : Reg} {r : Fin 32} {c : Fin 64}

theorem exec_drw_of_in_range (h : n.val = 0 ∨ s.i.toNat + n.val - 1 ≤ 0xFFF) :
    exec (.drw x y n) s = .next (s.drawn x y n) :=
  State.checkRange_ok _ ((s.rangeOk_iff n.val).2 (by omega))

theorem frame_drawn : Frame s (s.drawn x y n) [vF] [.display, .dirty] :=
  frame_setDisplay_advance ((Keeps.refl s).setV List.mem_cons_self) rfl

theorem getV_vF_drawn : (s.drawn x y n).getV vF = Flag.byte (s.drawing x y n).hit := getV_vF_setFlag

/-- The bytes of a sprite are read from `I` on, so its covered pixels are those of `SpriteCovers`. -/
theorem rowsCover_iff_spriteCovers :
    RowsCover (s.getV x) (s.getV y) 0 (s.mem.readBytes s.i.toNat n.val) r c ↔ SpriteCovers s x y n r c := by
  simp only [RowsCover, RowCovers, SpriteCovers, Memory.readBytes_length, Memory.readBytes_getElem, Fin.ext_iff, Nat.zero_add,
    val_spriteRow, val_spriteCol, State.readMem]
  constructor
  · rintro ⟨k, hk, hr, j, hj, hc, hb⟩
    exact ⟨k, hk, j, hj, hr, hc, hb⟩
  · rintro ⟨k, hk, j, hj, hr, hc, hb⟩
    exact ⟨k, hk, hr, j, hj, hc, hb⟩

/-- The rows of a sprite are few enough to be different rows of the display. -/
theorem sprite_fits (s : State) (n : Reg) : 0 + (s.mem.readBytes s.i.toNat n.val).length ≤ 16 := by
  rw [Memory.readBytes_length]; omega

theorem pixel_drawn_of_covers (h : SpriteCovers s x y n r c) : (s.drawn x y n).pixel r c = !s.pixel r c :=
  ((Drawing.rows_spec _ _ _ _ _ (sprite_fits s n)).1 r c).trans (if_pos (rowsCover_iff_spriteCovers.2 h))

theorem pixel_drawn_of_not_covers (h : ¬ SpriteCovers s x y n r c) : (s.drawn x y n).pixel r c = s.pixel r c :=
  ((Drawing.rows_spec _ _ _ _ _ (sprite_fits s n)).1 r c).trans (if_neg (mt rowsCover_iff_spriteCovers.1 h))

/-- A sprite hits exactly when it covers a set pixel (R211). -/
theorem hit_drawing_iff : (s.drawing x y n).hit = true ↔ ∃ r c, SpriteCovers s x y n r c ∧ s.pixel r c = true := by
  rw [State.drawing, (Drawing.rows_spec _ _ _ _ _ (sprite_fits s n)).2]
  simp [rowsCover_iff_spriteCovers, State.pixel]

/-- VF tells whether a covered pixel was set. -/
theorem getV_vF_drawn_eq_one_iff :
    (s.drawn x y n).getV vF = 1 ↔ ∃ r c, SpriteCovers s x y n r c ∧ s.pixel r c = true := by
  rw [getV_vF_drawn, Flag.byte_eq_one_iff, hit_drawing_iff]

end Sprite

/-- Settles O39: the sprite's rows are drawn one after the other on different rows of the display, as `Drawing.rows_spec` says. -/
theorem drwXorsTheSprite : Obligations.DrwXorsTheSprite := by
  intro x y n s h
  refine ⟨s.drawn x y n, exec_drw_of_in_range h, fun _ _ => pixel_drawn_of_covers, fun _ _ => pixel_drawn_of_not_covers,
    getV_vF_drawn_eq_one_iff.2, fun hclear => ?_, rfl, rfl, rfl, frame_drawn⟩
  have hno : (s.drawing x y n).hit ≠ true := fun hhit => by
    obtain ⟨r, c, hcov, hset⟩ := hit_drawing_iff.1 hhit
    simp [hclear r c hcov] at hset
  rw [getV_vF_drawn, Bool.eq_false_of_not_eq_true hno]
  rfl

/-! ### The same sprite drawn twice (R214) -/

section Twice
variable {s : State} {x y n : Reg} {r : Fin 32} {c : Fin 64}

/-- A draw whose coordinates are not in VF leaves the sprite where it is. -/
theorem spriteCovers_drawn (hx : x ≠ vF) (hy : y ≠ vF) :
    SpriteCovers (s.drawn x y n) x y n r c ↔ SpriteCovers s x y n r c := by
  have hvx : (s.drawn x y n).getV x = s.getV x := getV_setFlag_of_ne hx
  have hvy : (s.drawn x y n).getV y = s.getV y := getV_setFlag_of_ne hy
  rw [SpriteCovers, hvx, hvy]
  rfl

theorem pixel_drawn_drawn (hx : x ≠ vF) (hy : y ≠ vF) : ((s.drawn x y n).drawn x y n).pixel r c = s.pixel r c := by
  by_cases h : SpriteCovers s x y n r c
  · rw [pixel_drawn_of_covers ((spriteCovers_drawn hx hy).2 h), pixel_drawn_of_covers h, Bool.not_not]
  · rw [pixel_drawn_of_not_covers (mt (spriteCovers_drawn hx hy).1 h), pixel_drawn_of_not_covers h]

/-- The second draw hits exactly the covered pixels that were clear before the first. -/
theorem spriteCovers_and_pixel_drawn_iff (hx : x ≠ vF) (hy : y ≠ vF) :
    SpriteCovers (s.drawn x y n) x y n r c ∧ (s.drawn x y n).pixel r c = true ↔
      SpriteCovers s x y n r c ∧ s.pixel r c = false := by
  rw [spriteCovers_drawn hx hy]
  exact and_congr_right fun h => by rw [pixel_drawn_of_covers h, Bool.not_eq_true']

end Twice

/-- Settles O40: the first draw moves neither the sprite nor `I`, so the second inverts the same pixels again. -/
theorem drawTwiceRestoresDisplay : Obligations.DrawTwiceRestoresDisplay := by
  intro x y n s hx hy h
  refine ⟨s.drawn x y n, (s.drawn x y n).drawn x y n, exec_drw_of_in_range h, exec_drw_of_in_range h,
    fun _ _ => pixel_drawn_drawn hx hy, ?_⟩
  rw [getV_vF_drawn_eq_one_iff]
  exact exists_congr fun _ => exists_congr fun _ => spriteCovers_and_pixel_drawn_iff hx hy

end Sys2Proof.Machine
end

section
/-! SUPPORT. Keys and timers (45_keys_timers.md): what SKP, SKNP and WKEY answer on either side of their tests, and the writes
of the timer instructions. -/

namespace Sys2Proof.Machine

/-! ### The skips on a key -/

section KeyIndex
variable {s : State} {x k : Reg}

theorem exec_skp_of_index (h : (s.getV x).toNat = k.val) : exec (.skp x) s = .next (s.skipIf (s.pressed k)) := by
  rw [exec, execSkp, (keyIndex_eq_some _ k).2 h]

theorem exec_sknp_of_index (h : (s.getV x).toNat = k.val) : exec (.sknp x) s = .next (s.skipIf (!s.pressed k)) := by
  rw [exec, execSknp, (keyIndex_eq_some _ k).2 h]

theorem exec_skp_of_no_index (h : 15 < (s.getV x).toNat) : exec (.skp x) s = .next (s.raise .keyIndexFault) := by
  rw [exec, execSkp, (keyIndex_eq_none _).2 h]

theorem exec_sknp_of_no_index (h : 15 < (s.getV x).toNat) : exec (.sknp x) s = .next (s.raise .keyIndexFault) := by
  rw [exec, execSknp, (keyIndex_eq_none _).2 h]

end KeyIndex

/-- Settles O41: the tests are that the key `Vx` names is pressed, and that it is not. -/
theorem keySkips : Obligations.KeySkips := by
  intro x k s h
  have hsknp := exec_skips (exec_sknp_of_index h) Bool.not_iff_not
  simp only [ite_not] at hsknp
  exact ⟨exec_skips (exec_skp_of_index h) Iff.rfl, hsknp⟩

/-- Settles O42: a `Vx` above 15 names no key. -/
theorem keyIndexAboveFifteenFaults : Obligations.KeyIndexAboveFifteenFaults := fun _ s h =>
  ⟨⟨_, exec_skp_of_no_index h, faultTaken_raise s _, rfl⟩, ⟨_, exec_sknp_of_no_index h, faultTaken_raise s _, rfl⟩⟩

/-! ### The wait for a key -/

section LowestKey
variable {s : State} {k : Reg}

theorem exec_wkey_of_lowest (x : Reg) (hk : s.pressed k = true) (hlow : ∀ j < k, s.pressed j = false) :
    exec (.wkey x) s = .next (s.setV x (BitVec.ofNat 8 k.val)).advance := by
  rw [exec, execWkey, (s.lowestKey_eq_some k).2 ⟨hk, hlow⟩]

theorem exec_wkey_of_no_key (x : Reg) (h : ∀ k, s.pressed k = false) : exec (.wkey x) s = .next s.await := by
  rw [exec, execWkey, s.lowestKey_eq_none.2 h]

end LowestKey

/-- Settles O43: the index of a key fits in the byte that `Vx` receives. -/
theorem wkeyTakesLowestKey : Obligations.WkeyTakesLowestKey := by
  intro x k s hk hlow
  refine ⟨_, exec_wkey_of_lowest x hk hlow, ?_, rfl, rfl, frame_setV_advance s x _⟩
  have hlt : k.val < 2 ^ 8 := by omega
  rw [getV_setV_advance, BitVec.toNat_ofNat, Nat.mod_eq_of_lt hlt]

/-- Settles O44: with no key to take, WKEY only waits. -/
theorem wkeyWaitsForAKey : Obligations.WkeyWaitsForAKey := fun x s h =>
  ⟨s.await, exec_wkey_of_no_key x h, rfl, rfl, Frame.of_pc_run rfl, (stepResult_eq_waiting_iff s s.await).2 rfl⟩

/-! ### Timer access -/

/-- Settles O45: each instruction writes one register or one timer. -/
theorem timerAccess : Obligations.TimerAccess := fun x s =>
  ⟨⟨_, rfl, getV_setV_advance s x s.dt, rfl, rfl, frame_setV_advance s x s.dt⟩,
    ⟨_, rfl, rfl, rfl, rfl, ((Keeps.refl s).setDt List.mem_cons_self).goTo.frame rfl⟩,
    ⟨_, rfl, rfl, rfl, rfl, ((Keeps.refl s).setSt List.mem_cons_self).goTo.frame rfl⟩⟩

end Sys2Proof.Machine
end

section
/-! SUPPORT. Exceptions and the driver's events (60_exceptions.md): the fault table with the cause of each fault, and what `TICK`,
`KEYWRITE` and `DIRTYCLEAR` write. -/

namespace Sys2Proof.Machine

/-! ### The fault table (R251) -/

/-- The fault table over the instructions: in the state `s`, the instruction has cause to take the fault (R251). -/
inductive FaultCause (s : State) : Instr → Fault → Prop where
  | call {nnn : Imm12} (h : s.sp.val = 16) : FaultCause s (.call nnn) .stackOverflow
  | ret (h : s.sp.val = 0) : FaultCause s .ret .stackUnderflow
  | drw {x y n : Reg} (hn : n.val > 0) (h : s.i.toNat + n.val - 1 > 0xFFF) : FaultCause s (.drw x y n) .addressFault
  | bcd {x : Reg} (h : s.i.toNat + 2 > 0xFFF) : FaultCause s (.bcd x) .addressFault
  | stm {x : Reg} (h : s.i.toNat + x.val > 0xFFF) : FaultCause s (.stm x) .addressFault
  | ldm {x : Reg} (h : s.i.toNat + x.val > 0xFFF) : FaultCause s (.ldm x) .addressFault
  | skp {x : Reg} (h : (s.getV x).toNat > 0xF) : FaultCause s (.skp x) .keyIndexFault
  | sknp {x : Reg} (h : (s.getV x).toNat > 0xF) : FaultCause s (.sknp x) .keyIndexFault

/-- The instruction `i` ends in `s` without a fault, or takes a fault that the table gives it cause for. -/
inductive EndsByTable (i : Instr) (s : State) : Answer → Prop where
  | runs {t : State} (h : t.run = .running) : EndsByTable i s (.next t)
  | waits : EndsByTable i s (.next s.await)
  | faults {f : Fault} (h : FaultCause s i f) : EndsByTable i s (.next (s.raise f))

section Table
variable {i : Instr} {s : State}

/-- A range check fails only on a range of some bytes that passes the top of memory (R62). -/
theorem checkRange_endsByTable {done : State} {len : Nat} (hrun : done.run = .running)
    (hcause : 0 < len → 4096 < s.i.toNat + len → FaultCause s i .addressFault) :
    EndsByTable i s (s.checkRange len done) := by
  by_cases hr : s.rangeOk len = true
  · rw [State.checkRange_ok done hr]
    exact .runs hrun
  · rw [State.checkRange_bad done (Bool.eq_false_of_not_eq_true hr)]
    rw [s.rangeOk_iff] at hr
    exact .faults (hcause (by omega) (by omega))

theorem ret_endsByTable : EndsByTable .ret s (exec .ret s) := by
  by_cases h : 0 < s.sp.val
  · rw [exec_ret_of_used h]
    exact .runs rfl
  · have hempty : s.sp.val = 0 := by omega
    rw [exec_ret_of_empty hempty]
    exact .faults (.ret hempty)

theorem call_endsByTable (nnn : Imm12) : EndsByTable (.call nnn) s (exec (.call nnn) s) := by
  by_cases h : s.sp.val < 16
  · rw [exec_call_of_free nnn h]
    exact .runs rfl
  · have hfull : s.sp.val = 16 := by omega
    rw [exec_call_of_full nnn hfull]
    exact .faults (.call hfull)

/-- A skip on a key faults only where `Vx` is no key index (R230, R231). -/
theorem keySkip_endsByTable {x : Reg} {c : Reg → Bool}
    (hskip : ∀ k : Reg, (s.getV x).toNat = k.val → exec i s = .next (s.skipIf (c k)))
    (hraise : 15 < (s.getV x).toNat → exec i s = .next (s.raise .keyIndexFault))
    (hcause : 15 < (s.getV x).toNat → FaultCause s i .keyIndexFault) : EndsByTable i s (exec i s) := by
  by_cases h : 15 < (s.getV x).toNat
  · rw [hraise h]
    exact .faults (hcause h)
  · rw [hskip ⟨(s.getV x).toNat, by omega⟩ rfl]
    exact .runs rfl

theorem wkey_endsByTable (x : Reg) : EndsByTable (.wkey x) s (exec (.wkey x) s) := by
  rw [exec, execWkey]
  split
  · exact .runs rfl
  · exact .waits

/-- No instruction takes a fault that the table does not list for it. -/
theorem exec_endsByTable (i : Instr) (s : State) : EndsByTable i s (exec i s) :=
  match i with
  | .ret => ret_endsByTable
  | .call nnn => call_endsByTable nnn
  | .drw _ _ _ => checkRange_endsByTable rfl fun hn h => .drw hn (by omega)
  | .bcd _ => checkRange_endsByTable rfl fun _ h => .bcd (by omega)
  | .stm _ => checkRange_endsByTable rfl fun _ h => .stm (by omega)
  | .ldm _ => checkRange_endsByTable rfl fun _ h => .ldm (by omega)
  | .skp _ => keySkip_endsByTable (fun _ => exec_skp_of_index) exec_skp_of_no_index .skp
  | .sknp _ => keySkip_endsByTable (fun _ => exec_sknp_of_index) exec_sknp_of_no_index .sknp
  | .wkey x => wkey_endsByTable x
  | .cls | .jp _ | .sei _ _ | .snei _ _ | .ser _ _ | .sner _ _ | .jpv _ => .runs rfl
  | .ldi _ _ | .addi _ _ | .mov _ _ | .or _ _ | .and _ _ | .xor _ _ | .rnd _ _ => .runs rfl
  | .add _ _ | .sub _ _ | .shr _ _ | .subn _ _ | .shl _ _ => .runs rfl
  | .lda _ | .adda _ | .lddt _ | .stdt _ | .stst _ => .runs rfl

/-- A faulted answer is the state itself with a fault of the table raised. -/
theorem faultCause_of_run {t : State} (h : EndsByTable i s (.next t)) (hf : t.run = .faulted) :
    ∃ f, FaultCause s i f ∧ t = s.raise f := by
  cases h with
  | runs hrun => rw [hrun] at hf; cases hf
  | waits => cases hf
  | faults hc => exact ⟨_, hc, rfl⟩

end Table

/-- Settles O13: the fault raised has its cause in the table, and raising it writes its code and nothing else. -/
theorem faultsAreTheTable : Obligations.FaultsAreTheTable := by
  intro i s t _ h hf
  obtain ⟨f, hc, rfl⟩ := faultCause_of_run (h ▸ exec_endsByTable i s) hf
  have htaken := faultTaken_raise s f
  cases hc with
  | call hsp => exact .inl ⟨⟨_, rfl⟩, hsp, htaken, rfl⟩
  | ret hsp => exact .inr (.inl ⟨rfl, hsp, htaken, rfl⟩)
  | drw hn hi => exact .inr (.inr (.inl ⟨.inl ⟨_, _, _, rfl, hn, hi⟩, htaken, rfl⟩))
  | bcd hi => exact .inr (.inr (.inl ⟨.inr (.inl ⟨_, rfl, hi⟩), htaken, rfl⟩))
  | stm hi => exact .inr (.inr (.inl ⟨.inr (.inr ⟨_, .inl rfl, hi⟩), htaken, rfl⟩))
  | ldm hi => exact .inr (.inr (.inl ⟨.inr (.inr ⟨_, .inr rfl, hi⟩), htaken, rfl⟩))
  | skp hx => exact .inr (.inr (.inr ⟨⟨_, .inl rfl, hx⟩, htaken, rfl⟩))
  | sknp hx => exact .inr (.inr (.inr ⟨⟨_, .inr rfl, hx⟩, htaken, rfl⟩))

/-! ### Ticks (R260, R261) -/

section Tick
variable (s : State)

@[simp] theorem State.toNat_dt_tick : s.tick.1.dt.toNat = s.dt.toNat - 1 := toNat_countDown s.dt

@[simp] theorem State.toNat_st_tick : s.tick.1.st.toNat = s.st.toNat - 1 := toNat_countDown s.st

/-- The tone edge is that of a tick which takes `ST` from 1 to 0. -/
theorem State.tone_tick_iff : s.tick.2 = true ↔ s.st.toNat = 1 := decide_eq_true_iff.trans BitVec.toNat_inj.symm

theorem keeps_tick : Keeps [] [.dt, .st] s s.tick.1 :=
  { Keeps.refl s with dt := .inl List.mem_cons_self, st := .inl (List.mem_cons_of_mem _ List.mem_cons_self) }

/-- `ST` after some ticks is what is left of it, or 0. -/
theorem toNat_st_tickN (k : Nat) : (tickN k s).st.toNat = s.st.toNat - k := by
  induction k with
  | zero => rfl
  | succ k ih => rw [tickN, State.toNat_st_tick, ih, Nat.sub_sub]

end Tick

/-- Settles O46: the event is `State.tick`, which tests and writes the timers only. -/
theorem tickCountsDown : Obligations.TickCountsDown := fun s =>
  ⟨s.tick.1, s.tick.2, rfl, s.toNat_dt_tick, s.toNat_st_tick, s.tone_tick_iff, rfl, rfl, (keeps_tick s).frame rfl⟩

/-- Settles O47: `k` ticks leave `ST - k`, and the edge comes where that is 1. -/
theorem toneOnTheTickThatReachesZero : Obligations.ToneOnTheTickThatReachesZero := by
  intro s k
  rw [State.tone_tick_iff, toNat_st_tickN]
  omega

/-! ### The key latch and the dirty flag (R264, R266) -/

/-- Reading a key after writing one. -/
@[simp] theorem State.pressed_keyWrite (s : State) (k j : Reg) (b : Bool) :
    (s.keyWrite k b).pressed j = if j = k then b else s.pressed j := by
  rw [pressed, keyWrite_key]
  split
  · next h => subst h; exact Vector.getElem_set_self _
  · next h => exact Vector.getElem_set_ne _ _ fun hk => h (Fin.ext hk.symm)

/-- Settles O48: each event is one write of its own field. -/
theorem keyWriteAndDirtyClear : Obligations.KeyWriteAndDirtyClear := fun s k b =>
  ⟨⟨s.keyWrite k b, rfl, fun j => s.pressed_keyWrite k j b, rfl⟩, rfl⟩

end Sys2Proof.Machine
end

section
/-! SUPPORT. Reset, load and the end of a run (70_reset_and_hazards.md): what a reset state reads, what a load leaves beside the
image, and a state that steps to itself. -/

namespace Sys2Proof.Machine

/-! ### Reset (R300, R301) -/

section Reset
variable (s : State)

theorem readMem_doReset_of_lt {a : Nat} (h : a < 80) : s.doReset.readMem a = Config.font.getD a 0 := if_pos h

theorem readMem_doReset_of_le {a : Nat} (h : 80 ≤ a) : s.doReset.readMem a = 0 := if_neg (Nat.not_lt.2 h)

theorem getV_doReset (r : Reg) : s.doReset.getV r = 0 := Vector.getElem_replicate r.isLt

theorem pressed_doReset (k : Reg) : s.doReset.pressed k = false := Vector.getElem_replicate k.isLt

end Reset

/-- Settles O49: the event is `State.doReset`, whose memory lists no cell and whose vectors repeat their reset value. -/
theorem resetSetsEveryElement : Obligations.ResetSetsEveryElement := fun s =>
  ⟨s.doReset, rfl, fun _ => readMem_doReset_of_lt s, fun _ h _ => readMem_doReset_of_le s h, getV_doReset s, rfl, rfl, rfl,
    fun _ => Vector.getElem_replicate, rfl, rfl, Display.pixel_clear, rfl, pressed_doReset s, rfl, rfl, rfl⟩

/-! ### Load (R302) -/

section Load
variable (s : State) {bytes : List Byte}

/-- The bytes beside a loaded image are those of the reset memory. -/
theorem readMem_load_outside (h : bytes.length ≤ 3584) {a : Nat} (ha : a < 0x200 ∨ 0x200 + bytes.length ≤ a) :
    (s.load bytes).1.readMem a = State.reset.readMem a := by
  rw [load_of_fits s h]
  exact keepsMemOutside_storeBytes_advance (inv_doReset s).mem (by omega) a ha

/-- Beside memory, a load leaves what a reset leaves. -/
theorem load_eq_reset (h : bytes.length ≤ 3584) :
    (s.load bytes).1 = { State.reset with mem := (s.load bytes).1.mem, draws := s.draws } := by
  rw [load_of_fits s h]; rfl

end Load

/-- Settles O50: the length check chooses between the reset memory with the image stored and the state as it was. -/
theorem loadPlacesOrRejects : Obligations.LoadPlacesOrRejects := by
  refine fun s bytes => ⟨fun h => ?_, fun h => ?_⟩
  · have hevent : s.event (.load bytes) = .next ((s.load bytes).1, .loaded true) := by
      rw [State.event, load_of_fits s h]
    exact ⟨_, hevent, fun _ => readMem_load s h, fun _ => readMem_load_outside s h, load_eq_reset s h⟩
  · rw [State.event, load_of_too_long s h]

/-! ### The end of a run (R314) -/

/-- A state that steps to itself is where every longer run stays. -/
theorem run_of_step_eq_self {s : State} (h : step s = .next s) (k : Nat) : Sys2Proof.core.run k s = .next s := by
  induction k with
  | zero => rfl
  | succ k ih =>
    have hstep : Sys2Proof.core.step s = .next s := h
    simp only [Host.Core.run, hstep, ih]

/-- A running core that goes to its own `PC` is unchanged. -/
theorem State.goTo_self {s : State} {a : Word} (hr : s.run = .running) (ha : s.pc = a) : s.goTo a = s := by
  rw [goTo, ← ha, ← hr]

/-- Settles O22: the word at `PC` is a jump to `PC`, so one step answers the same state. -/
theorem selfJumpIsFinal : Obligations.SelfJumpIsFinal := by
  intro s nnn k hr hp hpc hw
  have hself : s.pc = zext16 nnn := BitVec.eq_of_toNat_eq (hpc.trans (toNat_zext16 nnn).symm)
  have hjp : decode s.fetchWord = .ok (.jp nnn) := by rw [hw, decode_encode]
  have hstep : step s = .next s :=
    calc step s = exec (.jp nnn) s := step_of_decode (by simp [hr]) hp hjp
      _ = .next (s.goTo (zext16 nnn)) := rfl
      _ = .next s := by rw [State.goTo_self hr hself]
  exact run_of_step_eq_self hstep k

end Sys2Proof.Machine
end
